-- ==== Sys2Proof/Word.lean ====
section
/-! DEFINITION. The one word of the machine: an unsigned byte (10_state.md R20, R24, R27, R30). -/

namespace Sys2Proof

/-- `u8` of R7: every register, memory cell, PC and FL value is an unsigned 8-bit value. -/
abbrev Byte := BitVec 8

/-- A register index 0..7 (R20). -/
abbrev RegIdx := Fin 8

end Sys2Proof
end

