-- ==== Sys2Proof/Syntax.lean ====
section
/-! DEFINITION. The instructions: mnemonics, formats (30_encoding.md R70, R71, R74) and `Instr`, with
the assembler spelling of R80. -/

namespace Sys2Proof

/-- The thirteen mnemonics of 00_scope.md R2, in the order of the source's table (R102). -/
inductive Mnemonic where
  | hlt | ldi | prn | mul | add | push | pop | call | ret | cmp | jeq | jne | jmp
deriving DecidableEq, Repr

/-- Every mnemonic, in table order. -/
def Mnemonic.all : List Mnemonic :=
  [.hlt, .ldi, .prn, .mul, .add, .push, .pop, .call, .ret, .cmp, .jeq, .jne, .jmp]

/-- The four formats of R71. -/
inductive Format where
  /-- opcode only -/
  | f0
  /-- opcode, register index a -/
  | f1r
  /-- opcode, register index a, register index b -/
  | f2rr
  /-- opcode, register index a, immediate imm8 -/
  | f2ri
deriving DecidableEq, Repr

/-- The operand count of a format (R70). -/
def Format.operandCount : Format → Nat
  | .f0   => 0
  | .f1r  => 1
  | .f2rr => 2
  | .f2ri => 2

/-- The format column of R74. -/
def Mnemonic.format : Mnemonic → Format
  | .hlt  => .f0
  | .ldi  => .f2ri
  | .prn  => .f1r
  | .mul  => .f2rr
  | .add  => .f2rr
  | .push => .f1r
  | .pop  => .f1r
  | .call => .f1r
  | .ret  => .f0
  | .cmp  => .f2rr
  | .jeq  => .f1r
  | .jne  => .f1r
  | .jmp  => .f1r

/-- The operand-count column of R74. -/
def Mnemonic.operandCount (k : Mnemonic) : Nat := k.format.operandCount

/-- The encoded length (R12, R70): the opcode byte and the operands. -/
def Mnemonic.length (k : Mnemonic) : Nat := 1 + k.operandCount

/-- The mnemonic as the opcode table spells it. -/
def Mnemonic.name : Mnemonic → String
  | .hlt  => "HLT"
  | .ldi  => "LDI"
  | .prn  => "PRN"
  | .mul  => "MUL"
  | .add  => "ADD"
  | .push => "PUSH"
  | .pop  => "POP"
  | .call => "CALL"
  | .ret  => "RET"
  | .cmp  => "CMP"
  | .jeq  => "JEQ"
  | .jne  => "JNE"
  | .jmp  => "JMP"

/-- An instruction with its operand bytes as they stand in memory. A register-index field is a whole
byte (R72): values above 7 are encodable, and `ridx` (40_dispatch.md R95) says what they do. RET has
no operand; its quirk byte is read by its meaning (R71, C2). -/
inductive Instr where
  | hlt
  | ldi (a imm : Byte)
  | prn (a : Byte)
  | mul (a b : Byte)
  | add (a b : Byte)
  | push (a : Byte)
  | pop (a : Byte)
  | call (a : Byte)
  | ret
  | cmp (a b : Byte)
  | jeq (a : Byte)
  | jne (a : Byte)
  | jmp (a : Byte)
deriving DecidableEq, Repr

def Instr.mnemonic : Instr → Mnemonic
  | .hlt     => .hlt
  | .ldi _ _ => .ldi
  | .prn _   => .prn
  | .mul _ _ => .mul
  | .add _ _ => .add
  | .push _  => .push
  | .pop _   => .pop
  | .call _  => .call
  | .ret     => .ret
  | .cmp _ _ => .cmp
  | .jeq _   => .jeq
  | .jne _   => .jne
  | .jmp _   => .jmp

/-- The operand bytes in byte order (R71, R80). -/
def Instr.operands : Instr → List Byte
  | .hlt       => []
  | .ldi a imm => [a, imm]
  | .prn a     => [a]
  | .mul a b   => [a, b]
  | .add a b   => [a, b]
  | .push a    => [a]
  | .pop a     => [a]
  | .call a    => [a]
  | .ret       => []
  | .cmp a b   => [a, b]
  | .jeq a     => [a]
  | .jne a     => [a]
  | .jmp a     => [a]

/-- The operand bytes that stand in a register-index position (R98). -/
def Instr.regOperands : Instr → List Byte
  | .hlt     => []
  | .ldi a _ => [a]
  | .prn a   => [a]
  | .mul a b => [a, b]
  | .add a b => [a, b]
  | .push a  => [a]
  | .pop a   => [a]
  | .call a  => [a]
  | .ret     => []
  | .cmp a b => [a, b]
  | .jeq a   => [a]
  | .jne a   => [a]
  | .jmp a   => [a]

/-- The assembler name of the register an index byte names, `none` for a byte that names no register
(R20, R72). R7's alias SP (R21) is an input spelling and is not printed. -/
def regName (b : Byte) : Option String :=
  if b.toNat ≤ 7 then some ("R" ++ toString b.toNat) else none

/-- Assembler text (R80): the mnemonic, then the operands separated by commas, registers as R0..R7 and
the immediate in decimal. An instruction with an index byte above 7 has no spelling. -/
def Instr.asm (i : Instr) : Option String :=
  match i with
  | .ldi a imm => (regName a).map fun ra => i.mnemonic.name ++ " " ++ ra ++ "," ++ toString imm.toNat
  | .hlt | .ret => some i.mnemonic.name
  | .prn a | .push a | .pop a | .call a | .jeq a | .jne a | .jmp a =>
    (regName a).map fun ra => i.mnemonic.name ++ " " ++ ra
  | .mul a b | .add a b | .cmp a b =>
    (regName a).bind fun ra => (regName b).map fun rb => i.mnemonic.name ++ " " ++ ra ++ "," ++ rb

end Sys2Proof
end

