-- ==== Sys2Proof/Config.lean ====
section
/-! DEFINITION. The implementation parameters of 00_scope.md R6, as plain data. -/

namespace Sys2Proof

/-- BOUNDS_MODE (R6, D4): out-of-range steps are reported (`checked`) or truncated (`wrap`). -/
inductive BoundsMode where
  | checked
  | wrap
deriving DecidableEq, Repr

/-- OPCODE_MAP (30_encoding.md R74): one byte value for each of the thirteen mnemonics.
Having one field per mnemonic is constraint 2 of R77. The other constraints are `OpcodeMap.wf`. -/
structure OpcodeMap where
  hlt  : Byte
  ldi  : Byte
  prn  : Byte
  mul  : Byte
  add  : Byte
  push : Byte
  pop  : Byte
  call : Byte
  ret  : Byte
  cmp  : Byte
  jeq  : Byte
  jne  : Byte
  jmp  : Byte
deriving DecidableEq, Repr

/-- The opcode byte of a mnemonic. -/
def OpcodeMap.byte (map : OpcodeMap) : Mnemonic → Byte
  | .hlt  => map.hlt
  | .ldi  => map.ldi
  | .prn  => map.prn
  | .mul  => map.mul
  | .add  => map.add
  | .push => map.push
  | .pop  => map.pop
  | .call => map.call
  | .ret  => map.ret
  | .cmp  => map.cmp
  | .jeq  => map.jeq
  | .jne  => map.jne
  | .jmp  => map.jmp

/-- Memory as data: pairs of an address and the byte there, in the canonical form `Memory.wf`
(Machine/Ops.lean). -/
abbrev Memory := List Host.Cell

/-- The parameters one machine is instantiated with (R6). No step writes them (log entry 1). -/
structure Config where
  /-- BOUNDS_MODE -/
  bounds    : BoundsMode
  /-- OPCODE_MAP -/
  opcodeMap : OpcodeMap
  /-- INIT_REGS: the reset values of R0 to R6 -/
  initRegs  : Vector Byte 7
  /-- INIT_FL: the reset value of FL -/
  initFl    : Byte
  /-- INIT_MEM: the reset contents of the 256 cells, before the loader writes -/
  initMem   : Memory
deriving DecidableEq, Repr

/-- HOST_FAULT_EXIT (60_exceptions.md R164, D15): the exit code with which the host reports a fault.
The spec leaves it OPEN, so nothing is known of it (log entry 12). -/
opaque Config.hostFaultExit : Nat

end Sys2Proof
end

