-- ==== Sys2Proof/WellFormed.lean ====
section
/-! DEFINITION. Checks on syntax: when an instruction's register operands name registers (30_encoding.md
R72), and when an OPCODE_MAP may be used at all (R77). -/

namespace Sys2Proof

/-- Every register-index byte names one of R0..R7 (R72). An instruction that fails this check is
encodable and has a meaning all the same (R95); it is only no assembler line (R80). -/
def Instr.wf (i : Instr) : Bool :=
  i.regOperands.all fun b => decide (b.toNat ≤ 7)

/-- R77, constraint 1: no two mnemonics share a value. -/
def OpcodeMap.injective (map : OpcodeMap) : Bool :=
  decide ((Mnemonic.all.map map.byte).Nodup)

/-- R77, constraint 3: each value's bits 7:6 equal the operand count. -/
def OpcodeMap.countsInTopBits (map : OpcodeMap) : Bool :=
  Mnemonic.all.all fun k => decide (((map.byte k).extractLsb' 6 2).toNat = k.operandCount)

/-- R77, constraint 4: 0xFF is not mapped. -/
def OpcodeMap.ffUnmapped (map : OpcodeMap) : Bool :=
  Mnemonic.all.all fun k => decide (map.byte k ≠ 0xFF#8)

/-- R77: the constraints that any OPCODE_MAP must meet. Constraint 2, exactly the thirteen mnemonics, is
the shape of the structure. -/
def OpcodeMap.wf (map : OpcodeMap) : Bool :=
  map.injective && map.countsInTopBits && map.ffUnmapped

end Sys2Proof
end

