-- ==== Sys2Proof/Decode.lean ====
section
/-! DEFINITION. The decoder, total on any bytes and rejecting by name, the encoder, the default
OPCODE_MAP, and the reading of a row of the opcode table. -/

namespace Sys2Proof

/-- The default OPCODE_MAP of 30_encoding.md R74. UNVERIFIED, unsafe: the spec takes these byte values from
general knowledge (G1, log entry 2). -/
def OpcodeMap.default : OpcodeMap where
  hlt  := 0x01
  ldi  := 0x82
  prn  := 0x47
  mul  := 0xA2
  add  := 0xA0
  push := 0x45
  pop  := 0x46
  call := 0x50
  ret  := 0x11
  cmp  := 0xA7
  jeq  := 0x55
  jne  := 0x56
  jmp  := 0x54

/-- The instantiation that State.reset uses: BOUNDS_MODE and OPCODE_MAP at their defaults (R6, R74).
DESIGN CHOICE, unsafe: the launch parameters INIT_REGS, INIT_FL and INIT_MEM, which the spec leaves at any
value (R44), are zero (log entries 3, 4 and 5). -/
def Config.default : Config where
  bounds    := .checked
  opcodeMap := OpcodeMap.default
  initRegs  := #v[0, 0, 0, 0, 0, 0, 0]
  initFl    := 0
  initMem   := []

/-- R79: the fetched byte is compared, whole, with every row of the map; `none` is an unknown byte (R76). -/
def OpcodeMap.lookup (map : OpcodeMap) (op : Byte) : Option Mnemonic :=
  Mnemonic.all.find? fun k => decide (map.byte k = op)

/-- Why bytes are no instruction. -/
inductive DecodeError where
  /-- no row of OPCODE_MAP has this byte (R76) -/
  | unknownOpcode (op : Byte)
  /-- the bytes end before the instruction does -/
  | truncated
deriving DecidableEq, Repr

/-- The one operand byte of format F1R, and what is left. -/
def take1 (mk : Byte → Instr) : List Byte → Except DecodeError (Instr × List Byte)
  | a :: rest => .ok (mk a, rest)
  | []        => .error .truncated

/-- The two operand bytes of formats F2RR and F2RI, and what is left. -/
def take2 (mk : Byte → Byte → Instr) : List Byte → Except DecodeError (Instr × List Byte)
  | a :: b :: rest => .ok (mk a b, rest)
  | _              => .error .truncated

/-- The instruction of a mnemonic, from the bytes after its opcode (R71, R79). -/
def decodeOperands (k : Mnemonic) (bytes : List Byte) : Except DecodeError (Instr × List Byte) :=
  match k with
  | .hlt  => .ok (.hlt, bytes)
  | .ldi  => take2 .ldi bytes
  | .prn  => take1 .prn bytes
  | .mul  => take2 .mul bytes
  | .add  => take2 .add bytes
  | .push => take1 .push bytes
  | .pop  => take1 .pop bytes
  | .call => take1 .call bytes
  | .ret  => .ok (.ret, bytes)
  | .cmp  => take2 .cmp bytes
  | .jeq  => take1 .jeq bytes
  | .jne  => take1 .jne bytes
  | .jmp  => take1 .jmp bytes

/-- The decoder: the first instruction of a list of bytes, and the bytes after it (R70, R79). -/
def decode (map : OpcodeMap) : List Byte → Except DecodeError (Instr × List Byte)
  | [] => .error .truncated
  | op :: bytes =>
    match map.lookup op with
    | none   => .error (.unknownOpcode op)
    | some k => decodeOperands k bytes

/-- The encoder (R71, R80): the opcode, then the operands in byte order. -/
def encode (map : OpcodeMap) (i : Instr) : List Byte :=
  map.byte i.mnemonic :: i.operands

/-- The bytes of the number `w`, the least significant first: `n` of them. Bit 0 of `w` is the least
significant bit of the first byte, as spec/opcode_table.json numbers bits. -/
def bytesOf : Nat → Nat → List Byte
  | 0,     _ => []
  | n + 1, w => BitVec.ofNat 8 w :: bytesOf n (w / 256)

/-- The longest instruction in bytes (R70). -/
def maxLength : Nat := 3

/-- A table word laid out as memory holds it: every bit above `nbits` is zero, up to the longest
instruction. -/
def tableBytes (nbits w : Nat) : List Byte := bytesOf maxLength (w % 2 ^ nbits)

/-- The instruction the decoder reads from a table word, under the default OPCODE_MAP. -/
def decodeTableWord (nbits w : Nat) : Option Instr :=
  match decode OpcodeMap.default (tableBytes nbits w) with
  | .ok (i, _) => some i
  | .error _   => none

end Sys2Proof
end

