-- ==== Sys2Proof/Machine/State.lean ====
section
/-! DEFINITION. All the state the spec gives the block (10_state.md R44), with the parameters it was
instantiated with (00_scope.md R6), and its value after reset. -/

namespace Sys2Proof.Machine

/-- RUN_STATE (R31). -/
inductive RunState where
  /-- after reset: the host may load memory and steps do nothing -/
  | idle
  /-- `run` has been given: each step executes one instruction -/
  | running
  /-- a HLT executed -/
  | halted
  /-- the fetched opcode had no handler -/
  | haltedUnknown
  /-- a CHECKED out-of-range condition was raised -/
  | faulted
deriving DecidableEq, Repr

/-- The code RUN_STATE reads as, 3 bits wide (R31, R44). -/
def RunState.code : RunState → BitVec 3
  | .idle          => 0
  | .running       => 1
  | .halted        => 2
  | .haltedUnknown => 3
  | .faulted       => 4

/-- The terminal states of R35. -/
def RunState.terminal : RunState → Bool
  | .idle          => false
  | .running       => false
  | .halted        => true
  | .haltedUnknown => true
  | .faulted       => true

/-- FAULT_CAUSE (R32). -/
inductive FaultCause where
  | none
  | regIndex
  | pcRange
  | spRange
deriving DecidableEq, Repr

/-- The code FAULT_CAUSE reads as, 2 bits wide (R32, R44). -/
def FaultCause.code : FaultCause → BitVec 2
  | .none     => 0
  | .regIndex => 1
  | .pcRange  => 2
  | .spRange  => 3

/-- What `raise Fault(cause)` can name (00_scope.md R9, 60_exceptions.md R161). -/
inductive RangeFault where
  /-- a register-index byte above 7 -/
  | regIndex
  /-- an address after the opcode, or a next or return address, above 255 -/
  | pcRange
  /-- SP stepped below 0 or above 255 -/
  | spRange
deriving DecidableEq, Repr

/-- The value a raised fault leaves in FAULT_CAUSE (R161). -/
def RangeFault.cause : RangeFault → FaultCause
  | .regIndex => .regIndex
  | .pcRange  => .pcRange
  | .spRange  => .spRange

/-- An item of the output stream OUT (R38). -/
inductive Event where
  /-- emitted by PRN -/
  | print (v : Byte)
  /-- emitted by CMP, its debug-print quirk -/
  | flags (fl : Byte)
  /-- emitted by an unknown-instruction halt -/
  | unknown (op : Byte)
deriving DecidableEq, Repr

/-- The whole state between steps (R44), and the instantiation it runs under (R6). -/
structure State where
  /-- the parameters, written by no step (log entry 1) -/
  cfg        : Config
  /-- R0 to R7 (R20); R7 is SP (R21) -/
  regs       : Vector Byte 8
  /-- PC (R24) -/
  pc         : Byte
  /-- FL (R27) -/
  fl         : Byte
  /-- M (R30) -/
  mem        : Memory
  /-- RUN_STATE (R31) -/
  runState   : RunState
  /-- FAULT_CAUSE (R32) -/
  faultCause : FaultCause
  /-- FAULT_PC (R33) -/
  faultPc    : Byte
  /-- OUT, oldest event first (R38) -/
  out        : List Event
deriving DecidableEq, Repr

/-- Reasons a step ends the model's run with a fault. There is none: every exceptional condition of the
spec leaves the block in a terminal RUN_STATE (60_exceptions.md R160), which is a next state. Nobody raises
one, and that is safe (log entry 6). -/
inductive Fault where
deriving DecidableEq, Repr

/-- Reasons a step has no meaning. -/
inductive Refusal where
  /-- An arm of `exec` whose instruction has no meaning yet. Raised by `exec` alone, and safe: the model
  stops where the hardware goes on. No arm raises it. -/
  | notModelled (mnemonic : String)
deriving DecidableEq, Repr

/-- SP_INIT (R6, R21). -/
def spInit : Byte := 0xF4

/-- PC_INIT (R6, R24). -/
def pcInit : Byte := 0x00

/-- The state after `reset` of a block with the parameters `cfg` (R44, R180). -/
def State.resetWith (cfg : Config) : State where
  cfg        := cfg
  regs       := cfg.initRegs.push spInit
  pc         := pcInit
  fl         := cfg.initFl
  mem        := cfg.initMem
  runState   := .idle
  faultCause := .none
  faultPc    := 0
  out        := []

/-- The state after reset of the default instantiation (R44, R180): the values the spec states, and
zero for R0 to R6 and FL with no memory cell listed (DESIGN CHOICE, log entries 3, 4 and 5). -/
def State.reset : State := State.resetWith Config.default

end Sys2Proof.Machine
end

