-- ==== Sys2Proof/Machine/Ops.lean ====
section
/-! DEFINITION. Named operations over memory, registers and output, the two exceptional stops, and the commit
of a working copy. -/

namespace Sys2Proof.Machine

/-! ### Memory as data -/

/-- What an unlisted cell reads as. DESIGN CHOICE, unsafe (log entry 5): the spec leaves the reset contents
open (10_state.md R44); any other contents are listed cells. -/
def Memory.unlisted : Byte := 0

/-- The canonical form from address `lo` on: addresses strictly rising and below 256, no entry equal to
what an unlisted cell reads as. -/
def Memory.wfFrom : Nat → Memory → Bool
  | _,  []          => true
  | lo, (a, v) :: m => decide (lo ≤ a) && decide (a < 256) && decide (v ≠ Memory.unlisted) &&
      Memory.wfFrom (a + 1) m

/-- The canonical form of a memory. -/
def Memory.wf (m : Memory) : Bool := Memory.wfFrom 0 m

/-- The byte at a numeric address. -/
def Memory.lookup : Memory → Nat → Byte
  | [],          _ => Memory.unlisted
  | (b, v) :: m, a => if a = b then v else Memory.lookup m a

/-- The memory without an entry for an address. -/
def Memory.erase : Memory → Nat → Memory
  | [],          _ => []
  | (b, v) :: m, a => if a = b then Memory.erase m a else (b, v) :: Memory.erase m a

/-- A memory with an entry put before the first one at a higher address. -/
def Memory.insert : Memory → Nat → Byte → Memory
  | [],          a, v => [(a, v)]
  | (b, w) :: m, a, v => if a < b then (a, v) :: (b, w) :: m else (b, w) :: Memory.insert m a v

/-- `MemRead(a, 1)` (00_scope.md R8). -/
def Memory.read (m : Memory) (a : Byte) : Byte := Memory.lookup m a.toNat

/-- `MemWrite(a, 1, v)` (R8), keeping the canonical form. -/
def Memory.write (m : Memory) (a v : Byte) : Memory :=
  if v = Memory.unlisted then Memory.erase m a.toNat
  else Memory.insert (Memory.erase m a.toNat) a.toNat v

/-! ### Registers, memory and output of a state -/

/-- `x[i]` (R8). -/
def State.reg (s : State) (i : RegIdx) : Byte := s.regs[i]

/-- `x[i] <- v` (R8). No register is hard-wired (10_state.md R23). -/
def State.setReg (s : State) (i : RegIdx) (v : Byte) : State := { s with regs := s.regs.set i v }

/-- The index of the stack pointer (R21). -/
def spIdx : RegIdx := 7

/-- R7 read as SP (R21). -/
def State.sp (s : State) : Byte := s.reg spIdx

/-- `pc <- v` (R8). -/
def State.setPc (s : State) (v : Byte) : State := { s with pc := v }

/-- `FL <- v` (R8). -/
def State.setFl (s : State) (v : Byte) : State := { s with fl := v }

/-- The byte in a cell. Reading changes nothing (20_memory.md R55). -/
def State.readByte (s : State) (a : Byte) : Byte := Memory.read s.mem a

/-- Set a cell. -/
def State.writeByte (s : State) (a v : Byte) : State := { s with mem := Memory.write s.mem a v }

/-- `OUT <- OUT ++ [e]` (R8, R38). -/
def State.emit (s : State) (e : Event) : State := { s with out := s.out ++ [e] }

/-- `RUN_STATE <- r`. -/
def State.setRunState (s : State) (r : RunState) : State := { s with runState := r }

/-! ### Stops and commit -/

/-- A range fault taken at `s`, the state before the step: the working copy is gone and only RUN_STATE,
FAULT_CAUSE and FAULT_PC change (40_dispatch.md R99, 60_exceptions.md R162). The spec has no return from it
but `reset` (R168). -/
def takeFault (c : RangeFault) (s : State) : State :=
  { s with runState := .faulted, faultCause := c.cause, faultPc := s.pc }

/-- The unknown-instruction halt (R163). -/
def unknownHalt (op : Byte) (s : State) : State :=
  { s with faultPc := s.pc, out := s.out ++ [.unknown op], runState := .haltedUnknown }

/-- What a handler leaves: its working copy, or the fault it raised (00_scope.md R9, R10). -/
abbrev Working := Except RangeFault State

/-- COMMIT (R99): the working copy replaces the state, or the fault is taken at the state before the step. -/
def commit (s : State) (w : Working) : Host.Outcome State Fault Refusal :=
  match w with
  | .ok s'   => .next s'
  | .error c => .next (takeFault c s)

end Sys2Proof.Machine
end

