-- ==== Sys2Proof/Machine/Flags.lean ====
section
/-! DEFINITION. FL (10_state.md R27): its bits, and the value CMP computes (43_arith.md R132). -/

namespace Sys2Proof.Machine

/-- FL[0], Equal (R27): the only bit an instruction reads (R28). -/
def State.flagE (s : State) : Bool := s.fl.getLsbD 0

/-- FL[1], Greater-than (R27). -/
def State.flagG (s : State) : Bool := s.fl.getLsbD 1

/-- FL[2], Less-than (R27). -/
def State.flagL (s : State) : Bool := s.fl.getLsbD 2

/-- The flags of an unsigned compare (R132): E, G or L alone, bits 7:3 zero. -/
def compareFlags (u w : Byte) : Byte :=
  if u.toNat = w.toNat then 0b0000_0001
  else if u.toNat > w.toNat then 0b0000_0010
  else 0b0000_0100

end Sys2Proof.Machine
end

