-- ==== Sys2Proof/Machine/Operands.lean ====
section
/-! DEFINITION. The checked helpers of 40_dispatch.md R94 to R97 and the operand fetch of R93. Each returns a
value, or raises a fault when BOUNDS_MODE = CHECKED. -/

namespace Sys2Proof.Machine

/-- `seq(pc, k)` (R94): the address k bytes after pc. -/
def seq (mode : BoundsMode) (pc : Byte) (k : Nat) : Except RangeFault Byte :=
  if pc.toNat + k ≤ 255 then .ok (BitVec.ofNat 8 (pc.toNat + k))
  else match mode with
    | .checked => .error .pcRange
    | .wrap    => .ok (BitVec.ofNat 8 ((pc.toNat + k) % 256))

/-- The low three bits of a byte, as a register index. -/
def lowIdx (b : Byte) : RegIdx := ⟨(b.extractLsb' 0 3).toNat, (b.extractLsb' 0 3).isLt⟩

/-- `ridx(b)` (R95): the register an operand byte names. -/
def ridx (mode : BoundsMode) (b : Byte) : Except RangeFault RegIdx :=
  if h : b.toNat ≤ 7 then .ok ⟨b.toNat, by omega⟩
  else match mode with
    | .checked => .error .regIndex
    | .wrap    => .ok (lowIdx b)

/-- `spdec(v)` (R96): SP - 1, for PUSH and CALL. -/
def spdec (mode : BoundsMode) (v : Byte) : Except RangeFault Byte :=
  if 1 ≤ v.toNat then .ok (BitVec.ofNat 8 (v.toNat - 1))
  else match mode with
    | .checked => .error .spRange
    | .wrap    => .ok 255

/-- `spinc(v)` (R97): SP + 1, for POP and RET. -/
def spinc (mode : BoundsMode) (v : Byte) : Except RangeFault Byte :=
  if v.toNat ≤ 254 then .ok (BitVec.ofNat 8 (v.toNat + 1))
  else match mode with
    | .checked => .error .spRange
    | .wrap    => .ok 0

/-- The address checks of the operand fetch (R93): `seq(pc, 1)` up to `seq(pc, n)`, in this order. The bytes
themselves reach a meaning as its arguments (log entry 14). -/
def operandFetch (s : State) : Nat → Except RangeFault Unit
  | 0     => .ok ()
  | n + 1 => do
    operandFetch s n
    let _ ← seq s.cfg.bounds s.pc (n + 1)
    .ok ()

/-- The next sequential pc, `pc <- seq(pc, k)`, on the working copy `w` of the state `s`. -/
def advance (s : State) (k : Nat) (w : State) : Working := do
  let next ← seq s.cfg.bounds s.pc k
  .ok (w.setPc next)

end Sys2Proof.Machine
end

