-- ==== Sys2Proof/Machine/Arith.lean ====
section
/-! DEFINITION. MUL, ADD and CMP (43_arith.md). -/

namespace Sys2Proof.Machine

/-- The low 8 bits of the exact product (R130, D2). -/
def mulBytes (u w : Byte) : Byte := BitVec.ofNat 8 (u.toNat * w.toNat % 256)

/-- The low 8 bits of the exact sum; the carry is discarded (R131, D2). -/
def addBytes (u w : Byte) : Byte := BitVec.ofNat 8 ((u.toNat + w.toNat) % 256)

/-- The shape MUL and ADD share (R130, R131): Ra becomes `f` of Ra and Rb, no flag is written. -/
def execAlu (f : Byte → Byte → Byte) (a b : Byte) (s : State) : Host.Outcome State Fault Refusal :=
  commit s do
    operandFetch s 2
    let i ← ridx s.cfg.bounds a
    let j ← ridx s.cfg.bounds b
    advance s 3 (s.setReg i (f (s.reg i) (s.reg j)))

/-- MUL Ra, Rb (R130). -/
def execMul (a b : Byte) (s : State) : Host.Outcome State Fault Refusal :=
  execAlu mulBytes a b s

/-- ADD Ra, Rb (R131). -/
def execAdd (a b : Byte) (s : State) : Host.Outcome State Fault Refusal :=
  execAlu addBytes a b s

/-- CMP Ra, Rb (R132): all of FL is written and the value is emitted (D13). -/
def execCmp (a b : Byte) (s : State) : Host.Outcome State Fault Refusal :=
  commit s do
    operandFetch s 2
    let i ← ridx s.cfg.bounds a
    let j ← ridx s.cfg.bounds b
    let f := compareFlags (s.reg i) (s.reg j)
    advance s 3 ((s.setFl f).emit (.flags f))

end Sys2Proof.Machine
end

