-- ==== Sys2Proof/Machine/Branch.lean ====
section
/-! DEFINITION. JEQ, JNE and JMP (45_branch.md). -/

namespace Sys2Proof.Machine

/-- The shape of the three jumps (R153): the index is checked whether or not the branch is taken (D5), and only
an untaken branch needs a next sequential pc. -/
def branchIf (taken : Bool) (a : Byte) (s : State) : Host.Outcome State Fault Refusal :=
  commit s do
    operandFetch s 1
    let i ← ridx s.cfg.bounds a
    if taken then .ok (s.setPc (s.reg i)) else advance s 2 s

/-- JEQ Ra (R150). -/
def execJeq (a : Byte) (s : State) : Host.Outcome State Fault Refusal :=
  branchIf s.flagE a s

/-- JNE Ra (R151). -/
def execJne (a : Byte) (s : State) : Host.Outcome State Fault Refusal :=
  branchIf (!s.flagE) a s

/-- JMP Ra (R152). -/
def execJmp (a : Byte) (s : State) : Host.Outcome State Fault Refusal :=
  branchIf true a s

end Sys2Proof.Machine
end

