-- ==== Sys2Proof/Machine/LoadStore.lean ====
section
/-! DEFINITION. LDI, PUSH and POP (42_load_store.md). -/

namespace Sys2Proof.Machine

/-- LDI Ra, imm8 (R120). -/
def execLdi (a imm : Byte) (s : State) : Host.Outcome State Fault Refusal :=
  commit s do
    operandFetch s 2
    let i ← ridx s.cfg.bounds a
    advance s 3 (s.setReg i imm)

/-- PUSH Ra (R121): Ra is read after the SP update, so PUSH R7 stores the new SP. -/
def execPush (a : Byte) (s : State) : Host.Outcome State Fault Refusal :=
  commit s do
    operandFetch s 1
    let i ← ridx s.cfg.bounds a
    let sp ← spdec s.cfg.bounds s.sp
    let w := s.setReg spIdx sp
    advance s 2 (w.writeByte sp (w.reg i))

/-- The reading of the stack that POP and RET share (R122, R141, D16): the top byte goes to register `i`, then
R7, read after that write, is incremented. -/
def popInto (i : RegIdx) (v : Byte) (s : State) : Working := do
  let w := s.setReg i v
  let sp ← spinc s.cfg.bounds w.sp
  .ok (w.setReg spIdx sp)

/-- POP Ra (R122). -/
def execPop (a : Byte) (s : State) : Host.Outcome State Fault Refusal :=
  commit s do
    operandFetch s 1
    let i ← ridx s.cfg.bounds a
    let w ← popInto i (s.readByte s.sp) s
    advance s 2 w

end Sys2Proof.Machine
end

