-- ==== Sys2Proof/Machine/Subroutine.lean ====
section
/-! DEFINITION. CALL and RET (44_subroutine.md). -/

namespace Sys2Proof.Machine

/-- CALL Ra (R140, D17): SP first, then the return address, then the target, so CALL R7 jumps to the new SP. -/
def execCall (a : Byte) (s : State) : Host.Outcome State Fault Refusal :=
  commit s do
    operandFetch s 1
    let i ← ridx s.cfg.bounds a
    let sp ← spdec s.cfg.bounds s.sp
    let w := s.setReg spIdx sp
    let ret ← seq s.cfg.bounds s.pc 2
    let w := w.writeByte sp ret
    .ok (w.setPc (w.reg i))

/-- RET (R141). The byte at pc + 1 is no part of its encoding (C2); RET reads it as the index of the register
that the quirk overwrites with the return address. -/
def execRet (s : State) : Host.Outcome State Fault Refusal :=
  commit s do
    let at1 ← seq s.cfg.bounds s.pc 1
    let q ← ridx s.cfg.bounds (s.readByte at1)
    let v := s.readByte s.sp
    let w ← popInto q v s
    .ok (w.setPc v)

end Sys2Proof.Machine
end

