-- ==== Sys2Proof/Machine/System.lean ====
section
/-! DEFINITION. HLT and PRN (41_system.md). Each meaning is the rule's pseudocode on the working copy, with `s` the
state before the step. -/

namespace Sys2Proof.Machine

/-- HLT (R110). No operand is fetched and pc is not written. -/
def execHlt (s : State) : Host.Outcome State Fault Refusal :=
  commit s (.ok (s.setRunState .halted))

/-- PRN Ra (R111). -/
def execPrn (a : Byte) (s : State) : Host.Outcome State Fault Refusal :=
  commit s do
    operandFetch s 1
    let i ← ridx s.cfg.bounds a
    advance s 2 (s.emit (.print (s.reg i)))

end Sys2Proof.Machine
end

