-- ==== Sys2Proof/Machine/Fetch.lean ====
section
/-! DEFINITION. The phases of a step before the handler (40_dispatch.md R90 to R93): the gate of RUN_STATE, the
fetch, the decode, and the bytes an instruction is read from. -/

namespace Sys2Proof.Machine

/-- The bytes at seq(pc, k), seq(pc, k + 1), … : at most `n`, ending where `seq` raises (R93, R94). -/
def bytesFrom (s : State) : Nat → Nat → List Byte
  | 0,     _ => []
  | n + 1, k =>
    match seq s.cfg.bounds s.pc k with
    | .ok a    => s.readByte a :: bytesFrom s n (k + 1)
    | .error _ => []

/-- The bytes the next instruction is decoded from: the opcode at pc, whose fetch never faults (R91), then the
operand bytes `seq` can reach. Reads have no side effect (20_memory.md R55), so reading more bytes than the
instruction has shows nothing. -/
def fetchBytes (s : State) : List Byte :=
  s.readByte s.pc :: bytesFrom s (maxLength - 1) 1

/-- What the phases before EXECUTE find. -/
inductive Fetched where
  /-- RUN_STATE is not RUNNING: the step changes nothing (10_state.md R42) -/
  | nothing
  /-- the opcode byte has no handler (R92) -/
  | unknown (op : Byte)
  /-- an operand address is out of range (R93, R94) -/
  | rangeFault (c : RangeFault)
  /-- the instruction to execute -/
  | run (i : Instr)
deriving DecidableEq, Repr

/-- FETCH, DECODE and OPERAND FETCH (R91 to R93), when RUN_STATE = RUNNING. The bytes end early only where `seq`
raises PC_RANGE. -/
def fetchDecode (s : State) : Fetched :=
  match s.runState with
  | .running =>
    match decode s.cfg.opcodeMap (fetchBytes s) with
    | .ok (i, _)                => .run i
    | .error (.unknownOpcode b) => .unknown b
    | .error .truncated         => .rangeFault .pcRange
  | .idle | .halted | .haltedUnknown | .faulted => .nothing

/-- Bytes placed at pc, pc + 1, …, wrapping at the end of memory. -/
def placeAtPc (s : State) (k : Nat) : List Byte → State
  | []      => s
  | b :: bs => placeAtPc (s.writeByte (BitVec.ofNat 8 ((s.pc.toNat + k) % 256)) b) (k + 1) bs

/-- The bytes of a table word where the next step fetches, and RUN_STATE = RUNNING: what the host's `load` and
`run` do for a program at pc (10_state.md R40, R41, log entry 7). -/
def placeWord (s : State) (nbits w : Nat) : State :=
  (placeAtPc s 0 (tableBytes nbits w)).setRunState .running

end Sys2Proof.Machine
end

