-- ==== Sys2Proof/Machine/Step.lean ====
section
/-! DEFINITION. One step (40_dispatch.md R90). -/

namespace Sys2Proof.Machine

/-- One whole instruction when RUN_STATE = RUNNING, and no effect otherwise (10_state.md R42). -/
def step (s : State) : Host.Outcome State Fault Refusal :=
  match fetchDecode s with
  | .nothing      => .next s
  | .unknown op   => .next (unknownHalt op s)
  | .rangeFault c => .next (takeFault c s)
  | .run i        => exec i s

/-- `s` made to run the instruction of a table word as its very next step. -/
def State.withFetchWord (s : State) (nbits w : Nat) : State := placeWord s nbits w

end Sys2Proof.Machine
end

