-- ==== Sys2Proof/Machine/Transactions.lean ====
section
/-! DEFINITION. The block's interface to its host (10_state.md R39 to R43), the host's exit mapping
(60_exceptions.md R164) and the optional trace port (R172). -/

namespace Sys2Proof.Machine

/-- The host's transactions (R39). Each is atomic. -/
inductive Transaction where
  | reset
  | load (addr byte : Byte)
  | run
  | step
  | readMem (addr : Byte)
  | readState
  | readOut
deriving DecidableEq, Repr

/-- `reset`, accepted in every RUN_STATE (70_reset_and_hazards.md R180). -/
def hostReset (s : State) : State := State.resetWith s.cfg

/-- `load(addr, byte)`, allowed while IDLE; otherwise no effect (R39, D20). -/
def hostLoad (addr byte : Byte) (s : State) : State :=
  match s.runState with
  | .idle => s.writeByte addr byte
  | .running | .halted | .haltedUnknown | .faulted => s

/-- `run`, allowed while IDLE; otherwise no effect (R39, R41). -/
def hostRun (s : State) : State :=
  match s.runState with
  | .idle => s.setRunState .running
  | .running | .halted | .haltedUnknown | .faulted => s

/-- The effect of a transaction on the state (R39). Reads have none (R43). -/
def transact (tx : Transaction) (s : State) : Host.Outcome State Fault Refusal :=
  match tx with
  | .reset     => .next (hostReset s)
  | .load a b  => .next (hostLoad a b s)
  | .run       => .next (hostRun s)
  | .step      => Sys2Proof.Machine.step s
  | .readMem _ => .next s
  | .readState => .next s
  | .readOut   => .next s

/-- The registers `read_state` gives (R39). -/
structure StateView where
  regs       : Vector Byte 8
  pc         : Byte
  fl         : Byte
  runState   : RunState
  faultCause : FaultCause
  faultPc    : Byte
deriving DecidableEq, Repr

/-- What a transaction answers its host (R39). -/
inductive Reply where
  /-- no value: the transaction has none, or is not allowed now (log entry 15) -/
  | nothing
  | byte (v : Byte)
  | view (v : StateView)
  | events (out : List Event)
deriving DecidableEq, Repr

/-- The register state as a view. -/
def State.view (s : State) : StateView where
  regs       := s.regs
  pc         := s.pc
  fl         := s.fl
  runState   := s.runState
  faultCause := s.faultCause
  faultPc    := s.faultPc

/-- The answer to a transaction: memory and registers while RUN_STATE ≠ RUNNING (R43), OUT always (R39). -/
def reply (tx : Transaction) (s : State) : Reply :=
  match tx with
  | .readMem a => if s.runState = .running then .nothing else .byte (s.readByte a)
  | .readState => if s.runState = .running then .nothing else .view s.view
  | .readOut   => .events s.out
  | .reset | .load _ _ | .run | .step => .nothing

/-- `load(k, b)`, `load(k + 1, b')`, … for the bytes of an image. -/
def loadFrom (s : State) (k : Nat) : List Byte → State
  | []      => s
  | b :: bs => loadFrom (hostLoad (BitVec.ofNat 8 k) b s) (k + 1) bs

/-- The load contract (R40): an image of at most 256 bytes is written from address 0; `none` where the host
interface refuses a longer one. -/
def loadImage (image : List Byte) (s : State) : Option State :=
  if image.length ≤ 256 then some (loadFrom s 0 image) else none

/-- What a run shows at its end (00_scope.md R13): the registers and status, memory and OUT. -/
structure Observation where
  view : StateView
  mem  : Memory
  out  : List Event
deriving DecidableEq, Repr

/-- The final tuple of a run (R13); a state that is not terminal has none. -/
def State.finalTuple (s : State) : Option Observation :=
  if s.runState.terminal then some ⟨s.view, s.mem, s.out⟩ else none

/-- What the host writes for an event (D14): PRINT is the value in decimal and a newline (41_system.md R111). The spec
gives no text for FLAGS and UNKNOWN (N7, N15). -/
def Event.render : Event → Option String
  | .print v   => some (toString v.toNat ++ "\n")
  | .flags _   => none
  | .unknown _ => none

/-- How the host's process ends (R164, informative). -/
inductive HostExit where
  /-- "a normal/zero-like exit" -/
  | zeroLike
  /-- a failure that names FAULT_CAUSE, with the exit code the spec leaves OPEN -/
  | failure (cause : FaultCause) (code : Nat)
deriving DecidableEq, Repr

/-- The host's exit mapping (R164); none before a terminal state. -/
def hostExit (s : State) : Option HostExit :=
  match s.runState with
  | .idle          => none
  | .running       => none
  | .halted        => some .zeroLike
  | .haltedUnknown => some .zeroLike
  | .faulted       => some (.failure s.faultCause Config.hostFaultExit)

/-- A snapshot at the trace port (R172). -/
structure Trace where
  pc    : Byte
  /-- the bytes at pc, pc + 1, … up to address 255; which of them a host shows is open (N19, log entry 13) -/
  bytes : List Byte
  regs  : Vector Byte 8
deriving DecidableEq, Repr

/-- The optional, read-only trace port (R172). -/
def traceSnapshot (s : State) : Trace where
  pc    := s.pc
  bytes := (List.range (256 - s.pc.toNat)).map fun k => s.readByte (BitVec.ofNat 8 (s.pc.toNat + k))
  regs  := s.regs

end Sys2Proof.Machine
end

