-- ==== Sys2Proof/Safety.lean ====
section
/-! DEFINITION. The terms in which claims speak of instructions and runs: when an operand is in range, valid parameters, the
invariant of every state a run reaches, and what a hang is. -/

namespace Sys2Proof.Machine

/-- The register an index byte names: 0..7 name themselves, and with WRAP a larger byte counts by its low three
bits (40_dispatch.md R95). -/
def regOf (b : Byte) : RegIdx := ⟨b.toNat % 8, Nat.mod_lt _ (by decide)⟩

/-- The address `n` bytes after pc does not raise PC_RANGE: with CHECKED it is at most 255 (R94). -/
abbrev reaches (s : State) (n : Nat) : Prop := s.cfg.bounds = .checked → s.pc.toNat + n ≤ 255

/-- An index byte does not raise REG_INDEX: with CHECKED it is at most 7 (R95). -/
abbrev names (s : State) (b : Byte) : Prop := s.cfg.bounds = .checked → b.toNat ≤ 7

/-- Parameters the spec allows: a map that meets R77, and initial contents in canonical form. -/
def validConfig (cfg : Config) : Bool := cfg.opcodeMap.wf && Memory.wf cfg.initMem

/-- Whether an event is the report of an unknown instruction (10_state.md R38). -/
def Event.isUnknown : Event → Bool
  | .print _   => false
  | .flags _   => false
  | .unknown _ => true

/-- The value of the last FLAGS event of an output stream. -/
def lastFlags : List Event → Option Byte
  | []               => none
  | .flags f :: es   => (lastFlags es).orElse fun _ => some f
  | .print _ :: es   => lastFlags es
  | .unknown _ :: es => lastFlags es

/-- What holds of every state a run from reset reaches, whatever the parameters. -/
structure State.Inv (s : State) : Prop where
  /-- the parameters are ones the spec allows (R77) -/
  cfg_valid : validConfig s.cfg = true
  /-- memory keeps its canonical form -/
  mem_wf : Memory.wf s.mem = true
  /-- only a fault writes FAULT_CAUSE (R32), and a fault leaves the block FAULTED (R162) -/
  cause_iff_faulted : s.faultCause ≠ .none ↔ s.runState = .faulted
  /-- with WRAP the block never faults (R161) -/
  faulted_checked : s.runState = .faulted → s.cfg.bounds = .checked
  /-- FAULT_PC is the address of the opcode at which the block stopped (R33, R162, R163) -/
  fault_pc : s.runState = .faulted ∨ s.runState = .haltedUnknown → s.faultPc = s.pc
  /-- nothing else writes FAULT_PC (R33) -/
  no_fault_pc : s.runState ≠ .faulted → s.runState ≠ .haltedUnknown → s.faultPc = 0
  /-- FL is INIT_FL until the first CMP, and then what the last CMP wrote and emitted (R28, R29, R132) -/
  fl_value : s.fl = (lastFlags s.out).getD s.cfg.initFl
  /-- a CMP sets exactly one of the three bits (R28) -/
  flags_one_hot : ∀ f, Event.flags f ∈ s.out → f = 1 ∨ f = 2 ∨ f = 4
  /-- before `run` the registers have their reset values and nothing is output (R41, R44) -/
  idle_fresh : s.runState = .idle →
    s.pc = pcInit ∧ s.regs = s.cfg.initRegs.push spInit ∧ s.fl = s.cfg.initFl ∧ s.out = []
  /-- a HALTED block stands at its HLT (R110) -/
  halted_at_hlt : s.runState = .halted → s.cfg.opcodeMap.lookup (s.readByte s.pc) = some .hlt
  /-- a FAULTED block stands at an instruction (R101) -/
  faulted_at_instr : s.runState = .faulted → (s.cfg.opcodeMap.lookup (s.readByte s.pc)).isSome
  /-- a block halted by an unknown byte stands at that byte and reported it last (R163) -/
  unknown_reported : s.runState = .haltedUnknown →
    s.cfg.opcodeMap.lookup (s.readByte s.pc) = none ∧
    ∃ earlier, s.out = earlier ++ [.unknown (s.readByte s.pc)] ∧ ∀ e ∈ earlier, e.isUnknown = false
  /-- and nothing else emits UNKNOWN (R38) -/
  no_unknown : s.runState ≠ .haltedUnknown → ∀ e ∈ s.out, e.isUnknown = false

/-- A hang (R103): the block is RUNNING after every number of steps. -/
def State.hangs (s : State) : Prop :=
  ∀ k, ∃ t, Sys2Proof.core.run k s = .next t ∧ t.runState = .running

end Sys2Proof.Machine
end

