-- ==== Sys2Proof/Certificates/Slice0/Obligations.lean ====
section
/-! DEFINITION. The statements for the provers. Each is written from the rule or section its docstring names, in
arithmetic of its own where the model has a helper. -/

namespace Sys2Proof.Stated

open Sys2Proof.Machine

/-- The state after a fault with this cause at `s` (60_exceptions.md R162). -/
def faulted (c : FaultCause) (s : State) : State :=
  { s with runState := .faulted, faultCause := c, faultPc := s.pc }

/-- The value of FL after comparing u with w (43_arith.md R132). -/
def cmpValue (u w : Byte) : Byte := if u = w then 1 else if w < u then 2 else 4

/-- The registers after `v` is popped into register `i`: the write, then R7 up by one (R122, R141). -/
def poppedRegs (s : State) (i : RegIdx) (v : Byte) : Vector Byte 8 :=
  (s.regs.set i v).set 7 ((s.regs.set i v)[7] + 1)

/-- The value SP has before it is incremented by a pop of `v` into register `i` (R122, R141). -/
def spBeforeInc (s : State) (i : RegIdx) (v : Byte) : Byte := (s.regs.set i v)[7]

/-- What no instruction of a kind changes: the parameters and the fault registers. -/
def sameStatus (s t : State) : Prop :=
  t.cfg = s.cfg ∧ t.faultCause = s.faultCause ∧ t.faultPc = s.faultPc

/-- A number below 256 in decimal, without leading zeros: each digit from the hundreds down, as its character. -/
def decimal (n : Nat) : List Char :=
  (if n < 10 then [n] else if n < 100 then [n / 10, n % 10] else [n / 100, n / 10 % 10, n % 10]).map
    fun d => Char.ofNat ('0'.toNat + d)

/-- The byte that `i`, PUSH a or CALL a, stores at the new SP `addr`: Ra, read after SP moves (42_load_store.md R121),
or the return address (44_subroutine.md R140). -/
inductive Stores (s : State) (addr : Byte) : Instr → Byte → Prop where
  | push (a : Byte) : Stores s addr (.push a) (if regOf a = 7 then addr else s.reg (regOf a))
  | call (a : Byte) : Stores s addr (.call a) (s.pc + 2)

/-- The bytes from pc on are the encoding of `i`. -/
def standsAtPc (s : State) (i : Instr) : Prop :=
  ∀ k (h : k < (encode s.cfg.opcodeMap i).length),
    s.readByte (s.pc + BitVec.ofNat 8 k) = (encode s.cfg.opcodeMap i)[k]

end Sys2Proof.Stated

open Sys2Proof Sys2Proof.Machine Sys2Proof.Stated

/-! ### One statement per instruction: encoding, completion with the whole next state, and the faults

The encoding clause holds for every OPCODE_MAP. The default byte it names beside that is the rule's own, which the spec
takes from general knowledge (G1, log entry 2). -/

/-- R110. HLT completes in every state, at every pc, in both bounds modes; later steps do nothing. The opcode byte
is the default the spec marks as general knowledge (log entry 2). -/
def Obligations.HaltRule : Prop :=
  ∀ (map : OpcodeMap) (s : State),
    encode map .hlt = [map.hlt] ∧ OpcodeMap.default.hlt = 0x01 ∧
    exec .hlt s = .next { s with runState := .halted } ∧
    step { s with runState := .halted } = .next { s with runState := .halted } ∧
    hostExit { s with runState := .halted } = some .zeroLike

/-- R111. PRN emits PRINT(Ra), which the host renders in decimal and a newline; its faults emit nothing. -/
def Obligations.PrintRule : Prop :=
  ∀ (map : OpcodeMap) (a : Byte) (s : State),
    encode map (.prn a) = [map.prn, a] ∧ OpcodeMap.default.prn = 0x47 ∧
    (reaches s 2 → names s a →
      exec (.prn a) s = .next { s with out := s.out ++ [.print (s.reg (regOf a))], pc := s.pc + 2 }) ∧
    (∀ v : Byte, Event.render (.print v) = some (String.ofList (decimal v.toNat ++ ['\n']))) ∧
    Event.render (.print 72) = some "72\n" ∧
    (s.cfg.bounds = .checked →
      (s.pc.toNat = 255 → exec (.prn a) s = .next (faulted .pcRange s)) ∧
      (s.pc.toNat ≤ 254 → 7 < a.toNat → exec (.prn a) s = .next (faulted .regIndex s)) ∧
      (s.pc.toNat = 254 → a.toNat ≤ 7 → exec (.prn a) s = .next (faulted .pcRange s)))

/-- R120. LDI writes the literal to Ra and nothing else but pc. -/
def Obligations.LoadImmediateRule : Prop :=
  ∀ (map : OpcodeMap) (a imm : Byte) (s : State),
    encode map (.ldi a imm) = [map.ldi, a, imm] ∧ OpcodeMap.default.ldi = 0x82 ∧
    (reaches s 3 → names s a →
      exec (.ldi a imm) s = .next { s with regs := s.regs.set (regOf a) imm, pc := s.pc + 3 }) ∧
    (s.cfg.bounds = .checked →
      (254 ≤ s.pc.toNat → exec (.ldi a imm) s = .next (faulted .pcRange s)) ∧
      (s.pc.toNat ≤ 253 → 7 < a.toNat → exec (.ldi a imm) s = .next (faulted .regIndex s)) ∧
      (s.pc.toNat = 253 → a.toNat ≤ 7 → exec (.ldi a imm) s = .next (faulted .pcRange s)))

/-- R121. PUSH moves SP down, then stores Ra, read after the move, at the new SP. -/
def Obligations.PushRule : Prop :=
  ∀ (map : OpcodeMap) (a : Byte) (s : State),
    encode map (.push a) = [map.push, a] ∧ OpcodeMap.default.push = 0x45 ∧
    (reaches s 2 → names s a → (s.cfg.bounds = .checked → s.sp ≠ 0) →
      exec (.push a) s = .next
        { s with
          regs := s.regs.set 7 (s.sp - 1)
          mem  := Memory.write s.mem (s.sp - 1) (s.regs.set 7 (s.sp - 1))[regOf a]
          pc   := s.pc + 2 }) ∧
    (s.cfg.bounds = .checked →
      (s.pc.toNat = 255 → exec (.push a) s = .next (faulted .pcRange s)) ∧
      (s.pc.toNat ≤ 254 → 7 < a.toNat → exec (.push a) s = .next (faulted .regIndex s)) ∧
      (s.pc.toNat ≤ 254 → a.toNat ≤ 7 → s.sp = 0 → exec (.push a) s = .next (faulted .spRange s)) ∧
      (s.pc.toNat = 254 → a.toNat ≤ 7 → s.sp ≠ 0 → exec (.push a) s = .next (faulted .pcRange s)))

/-- R122. POP writes M[SP] to Ra, then increments R7 as it stands after that write. -/
def Obligations.PopRule : Prop :=
  ∀ (map : OpcodeMap) (a : Byte) (s : State),
    encode map (.pop a) = [map.pop, a] ∧ OpcodeMap.default.pop = 0x46 ∧
    (reaches s 2 → names s a →
      (s.cfg.bounds = .checked → spBeforeInc s (regOf a) (s.readByte s.sp) ≠ 255) →
      exec (.pop a) s = .next
        { s with regs := poppedRegs s (regOf a) (s.readByte s.sp), pc := s.pc + 2 }) ∧
    (s.cfg.bounds = .checked →
      (s.pc.toNat = 255 → exec (.pop a) s = .next (faulted .pcRange s)) ∧
      (s.pc.toNat ≤ 254 → 7 < a.toNat → exec (.pop a) s = .next (faulted .regIndex s)) ∧
      (s.pc.toNat ≤ 254 → a.toNat ≤ 7 → spBeforeInc s (regOf a) (s.readByte s.sp) = 255 →
        exec (.pop a) s = .next (faulted .spRange s)) ∧
      (s.pc.toNat = 254 → a.toNat ≤ 7 → spBeforeInc s (regOf a) (s.readByte s.sp) ≠ 255 →
        exec (.pop a) s = .next (faulted .pcRange s)))

/-- R130. MUL keeps the low 8 bits of the product in Ra and writes no flag. The wrap is the spec's decision D2. -/
def Obligations.MultiplyRule : Prop :=
  ∀ (map : OpcodeMap) (a b : Byte) (s : State),
    encode map (.mul a b) = [map.mul, a, b] ∧ OpcodeMap.default.mul = 0xA2 ∧
    (reaches s 3 → names s a → names s b →
      exec (.mul a b) s = .next
        { s with
          regs := s.regs.set (regOf a) (s.reg (regOf a) * s.reg (regOf b))
          pc   := s.pc + 3 }) ∧
    (s.cfg.bounds = .checked →
      (254 ≤ s.pc.toNat → exec (.mul a b) s = .next (faulted .pcRange s)) ∧
      (s.pc.toNat ≤ 253 → 7 < a.toNat ∨ 7 < b.toNat →
        exec (.mul a b) s = .next (faulted .regIndex s)) ∧
      (s.pc.toNat = 253 → a.toNat ≤ 7 → b.toNat ≤ 7 →
        exec (.mul a b) s = .next (faulted .pcRange s)))

/-- R131. ADD keeps the low 8 bits of the sum in Ra and writes no flag. The wrap is the spec's decision D2. -/
def Obligations.AddRule : Prop :=
  ∀ (map : OpcodeMap) (a b : Byte) (s : State),
    encode map (.add a b) = [map.add, a, b] ∧ OpcodeMap.default.add = 0xA0 ∧
    (reaches s 3 → names s a → names s b →
      exec (.add a b) s = .next
        { s with
          regs := s.regs.set (regOf a) (s.reg (regOf a) + s.reg (regOf b))
          pc   := s.pc + 3 }) ∧
    (s.cfg.bounds = .checked →
      (254 ≤ s.pc.toNat → exec (.add a b) s = .next (faulted .pcRange s)) ∧
      (s.pc.toNat ≤ 253 → 7 < a.toNat ∨ 7 < b.toNat →
        exec (.add a b) s = .next (faulted .regIndex s)) ∧
      (s.pc.toNat = 253 → a.toNat ≤ 7 → b.toNat ≤ 7 →
        exec (.add a b) s = .next (faulted .pcRange s)))

/-- R132. CMP writes all of FL and emits it; neither is committed on a fault. -/
def Obligations.CompareRule : Prop :=
  ∀ (map : OpcodeMap) (a b : Byte) (s : State),
    encode map (.cmp a b) = [map.cmp, a, b] ∧ OpcodeMap.default.cmp = 0xA7 ∧
    (reaches s 3 → names s a → names s b →
      exec (.cmp a b) s = .next
        { s with
          fl  := cmpValue (s.reg (regOf a)) (s.reg (regOf b))
          out := s.out ++ [.flags (cmpValue (s.reg (regOf a)) (s.reg (regOf b)))]
          pc  := s.pc + 3 }) ∧
    (s.cfg.bounds = .checked →
      (254 ≤ s.pc.toNat → exec (.cmp a b) s = .next (faulted .pcRange s)) ∧
      (s.pc.toNat ≤ 253 → 7 < a.toNat ∨ 7 < b.toNat →
        exec (.cmp a b) s = .next (faulted .regIndex s)) ∧
      (s.pc.toNat = 253 → a.toNat ≤ 7 → b.toNat ≤ 7 →
        exec (.cmp a b) s = .next (faulted .pcRange s)))

/-- R140. CALL moves SP down, stores pc + 2 there, and jumps to Ra, read after the move. -/
def Obligations.CallRule : Prop :=
  ∀ (map : OpcodeMap) (a : Byte) (s : State),
    encode map (.call a) = [map.call, a] ∧ OpcodeMap.default.call = 0x50 ∧
    (reaches s 2 → names s a → (s.cfg.bounds = .checked → s.sp ≠ 0) →
      exec (.call a) s = .next
        { s with
          regs := s.regs.set 7 (s.sp - 1)
          mem  := Memory.write s.mem (s.sp - 1) (s.pc + 2)
          pc   := (s.regs.set 7 (s.sp - 1))[regOf a] }) ∧
    (s.cfg.bounds = .checked →
      (s.pc.toNat = 255 → exec (.call a) s = .next (faulted .pcRange s)) ∧
      (s.pc.toNat ≤ 254 → 7 < a.toNat → exec (.call a) s = .next (faulted .regIndex s)) ∧
      (s.pc.toNat ≤ 254 → a.toNat ≤ 7 → s.sp = 0 → exec (.call a) s = .next (faulted .spRange s)) ∧
      (s.pc.toNat = 254 → a.toNat ≤ 7 → s.sp ≠ 0 → exec (.call a) s = .next (faulted .pcRange s)))

/-- R141. RET jumps to the popped byte, and writes it to the register that the byte at pc + 1 names before it
increments R7. -/
def Obligations.ReturnRule : Prop :=
  ∀ (map : OpcodeMap) (s : State),
    encode map .ret = [map.ret] ∧ OpcodeMap.default.ret = 0x11 ∧
    (reaches s 1 → names s (s.readByte (s.pc + 1)) →
      (s.cfg.bounds = .checked →
        spBeforeInc s (regOf (s.readByte (s.pc + 1))) (s.readByte s.sp) ≠ 255) →
      exec .ret s = .next
        { s with
          regs := poppedRegs s (regOf (s.readByte (s.pc + 1))) (s.readByte s.sp)
          pc   := s.readByte s.sp }) ∧
    (s.cfg.bounds = .checked →
      (s.pc.toNat = 255 → exec .ret s = .next (faulted .pcRange s)) ∧
      (s.pc.toNat ≤ 254 → 7 < (s.readByte (s.pc + 1)).toNat →
        exec .ret s = .next (faulted .regIndex s)) ∧
      (s.pc.toNat ≤ 254 → (s.readByte (s.pc + 1)).toNat ≤ 7 →
        spBeforeInc s (regOf (s.readByte (s.pc + 1))) (s.readByte s.sp) = 255 →
        exec .ret s = .next (faulted .spRange s)))

/-- R150. JEQ jumps iff FL[0] = 1; the index is checked either way, the next pc only when it is needed. -/
def Obligations.JumpIfEqualRule : Prop :=
  ∀ (map : OpcodeMap) (a : Byte) (s : State),
    encode map (.jeq a) = [map.jeq, a] ∧ OpcodeMap.default.jeq = 0x55 ∧
    (reaches s 1 → names s a → s.fl.getLsbD 0 = true →
      exec (.jeq a) s = .next { s with pc := s.reg (regOf a) }) ∧
    (reaches s 2 → names s a → s.fl.getLsbD 0 = false →
      exec (.jeq a) s = .next { s with pc := s.pc + 2 }) ∧
    (s.cfg.bounds = .checked →
      (s.pc.toNat = 255 → exec (.jeq a) s = .next (faulted .pcRange s)) ∧
      (s.pc.toNat ≤ 254 → 7 < a.toNat → exec (.jeq a) s = .next (faulted .regIndex s)) ∧
      (s.pc.toNat = 254 → a.toNat ≤ 7 → s.fl.getLsbD 0 = false →
        exec (.jeq a) s = .next (faulted .pcRange s)))

/-- R151. JNE jumps iff FL[0] = 0. -/
def Obligations.JumpIfNotEqualRule : Prop :=
  ∀ (map : OpcodeMap) (a : Byte) (s : State),
    encode map (.jne a) = [map.jne, a] ∧ OpcodeMap.default.jne = 0x56 ∧
    (reaches s 1 → names s a → s.fl.getLsbD 0 = false →
      exec (.jne a) s = .next { s with pc := s.reg (regOf a) }) ∧
    (reaches s 2 → names s a → s.fl.getLsbD 0 = true →
      exec (.jne a) s = .next { s with pc := s.pc + 2 }) ∧
    (s.cfg.bounds = .checked →
      (s.pc.toNat = 255 → exec (.jne a) s = .next (faulted .pcRange s)) ∧
      (s.pc.toNat ≤ 254 → 7 < a.toNat → exec (.jne a) s = .next (faulted .regIndex s)) ∧
      (s.pc.toNat = 254 → a.toNat ≤ 7 → s.fl.getLsbD 0 = true →
        exec (.jne a) s = .next (faulted .pcRange s)))

/-- R152. JMP jumps to Ra; at address 254 it needs no next sequential pc. -/
def Obligations.JumpRule : Prop :=
  ∀ (map : OpcodeMap) (a : Byte) (s : State),
    encode map (.jmp a) = [map.jmp, a] ∧ OpcodeMap.default.jmp = 0x54 ∧
    (reaches s 1 → names s a → exec (.jmp a) s = .next { s with pc := s.reg (regOf a) }) ∧
    (s.cfg.bounds = .checked →
      (s.pc.toNat = 255 → exec (.jmp a) s = .next (faulted .pcRange s)) ∧
      (s.pc.toNat ≤ 254 → 7 < a.toNat → exec (.jmp a) s = .next (faulted .regIndex s)))

/-! ### Frames -/

/-- LDI, MUL and ADD, when they do not fault, change Ra and pc alone (10_state.md R22, R28). -/
def Obligations.RegisterWritersFrame : Prop :=
  ∀ (a b : Byte) (i : Instr) (s t : State),
    i = .ldi a b ∨ i = .mul a b ∨ i = .add a b →
    s.runState = .running → exec i s = .next t → t.runState = .running →
    (∀ r, r ≠ regOf a → t.reg r = s.reg r) ∧ t.fl = s.fl ∧ t.out = s.out ∧
    (∀ x, t.readByte x = s.readByte x) ∧ sameStatus s t

/-- HLT, PRN, CMP, JEQ, JNE and JMP, when they do not fault, change no register and no memory byte; FL is CMP's
alone, OUT is PRN's and CMP's, RUN_STATE is HLT's, and HLT leaves pc (10_state.md R22, R25, R28, R38; 20_memory.md
R51 for memory). -/
def Obligations.NonStoringFrame : Prop :=
  ∀ (a b : Byte) (i : Instr) (s t : State),
    i = .hlt ∨ i = .prn a ∨ i = .cmp a b ∨ i = .jeq a ∨ i = .jne a ∨ i = .jmp a →
    s.runState = .running → exec i s = .next t → t.runState ≠ .faulted →
    (∀ r, t.reg r = s.reg r) ∧ (∀ x, t.readByte x = s.readByte x) ∧ sameStatus s t ∧
    (i ≠ .cmp a b → t.fl = s.fl) ∧
    (i ≠ .cmp a b → i ≠ .prn a → t.out = s.out) ∧
    (i ≠ .hlt → t.runState = .running) ∧
    (i = .hlt → t.pc = s.pc)

/-- PUSH and CALL, when they do not fault, change R7, pc and the one byte at the address `spdec` gives for SP
(R22, 20_memory.md R51). -/
def Obligations.StackWritersFrame : Prop :=
  ∀ (a : Byte) (i : Instr) (s t : State),
    i = .push a ∨ i = .call a →
    s.runState = .running → exec i s = .next t → t.runState = .running →
    (∀ r, r ≠ 7 → t.reg r = s.reg r) ∧ t.fl = s.fl ∧ t.out = s.out ∧ sameStatus s t ∧
    (∀ addr, spdec s.cfg.bounds s.sp = .ok addr → ∀ x, x ≠ addr → t.readByte x = s.readByte x)

/-- POP and RET, when they do not fault, change R7, pc and the register they pop into: Ra, or the register the
quirk byte after RET names. They store nothing (R22, R51). -/
def Obligations.StackReadersFrame : Prop :=
  ∀ (a : Byte) (i : Instr) (s t : State),
    i = .pop a ∨ (i = .ret ∧ a = s.readByte (s.pc + 1)) →
    s.runState = .running → exec i s = .next t → t.runState = .running →
    (∀ r, r ≠ 7 → r ≠ regOf a → t.reg r = s.reg r) ∧ t.fl = s.fl ∧ t.out = s.out ∧
    sameStatus s t ∧ (∀ x, t.readByte x = s.readByte x)

/-! ### The checked helpers -/

/-- R94, R95, R96 and R97: each helper's value, and its fault with CHECKED. -/
def Obligations.CheckedHelperRules : Prop :=
  (∀ (mode : BoundsMode) (pc : Byte) (k : Nat), 1 ≤ k → k ≤ 3 →
    seq mode pc k =
      if mode = .checked ∧ 255 < pc.toNat + k then .error .pcRange else .ok (pc + BitVec.ofNat 8 k)) ∧
  (∀ (mode : BoundsMode) (b : Byte),
    ridx mode b = if mode = .checked ∧ 7 < b.toNat then .error .regIndex else .ok (regOf b)) ∧
  (∀ (mode : BoundsMode) (v : Byte),
    spdec mode v = if mode = .checked ∧ v = 0 then .error .spRange else .ok (v - 1)) ∧
  (∀ (mode : BoundsMode) (v : Byte),
    spinc mode v = if mode = .checked ∧ v = 255 then .error .spRange else .ok (v + 1))

/-! ### The step -/

/-- A step runs the decoded instruction, and nothing is added around it (R90, R100). -/
def Obligations.StepRunsDecoded : Prop :=
  ∀ (s : State) (i : Instr) (rest : List Byte),
    s.runState = .running → decode s.cfg.opcodeMap (fetchBytes s) = .ok (i, rest) →
    step s = exec i s

/-- A step runs the instruction whose encoding stands in memory at pc, under every map that meets R77; with WRAP
its bytes may run over the end of memory (R70, R79, R90, R93). -/
def Obligations.StepRunsEncodedBytes : Prop :=
  ∀ (s : State) (i : Instr),
    s.runState = .running → s.cfg.opcodeMap.wf = true → reaches s i.operands.length →
    standsAtPc s i → step s = exec i s

/-- R163. The unknown-instruction halt, at every pc and in both bounds modes. -/
def Obligations.UnknownInstructionHalts : Prop :=
  ∀ (s : State), s.runState = .running → s.cfg.opcodeMap.lookup (s.readByte s.pc) = none →
    ∃ t, step s = .next t ∧ hostExit t = some .zeroLike ∧
      t = { s with
        faultPc  := s.pc
        out      := s.out ++ [.unknown (s.readByte s.pc)]
        runState := .haltedUnknown }

/-- R93, R94 with CHECKED: a step whose operand bytes run past address 255 faults with PC_RANGE before anything
else of the instruction is looked at (R101). -/
def Obligations.OperandPastEndFaults : Prop :=
  ∀ (s : State) (k : Mnemonic),
    s.runState = .running → s.cfg.bounds = .checked →
    s.cfg.opcodeMap.lookup (s.readByte s.pc) = some k → 255 < s.pc.toNat + k.operandCount →
    step s = .next (faulted .pcRange s)

/-- R42: a step outside RUNNING changes nothing. -/
def Obligations.StepOutsideRunning : Prop :=
  ∀ (s : State), s.runState ≠ .running → step s = .next s

/-- Every step of every state has a next state, and no instruction is refused. R160 makes every stop a RUN_STATE; that
a stop is an outcome `next`, and no fault of the model, is the model's choice (log entry 6, DEDUCED). -/
def Obligations.StepAlwaysNext : Prop :=
  ∀ (s : State), ∃ t, step s = .next t

/-- R162. A fault is precise: it changes RUN_STATE, FAULT_CAUSE and FAULT_PC alone, and no step follows it. -/
def Obligations.FaultIsPrecise : Prop :=
  ∀ (s t : State), s.runState = .running → step s = .next t → t.runState = .faulted →
    t.faultCause ≠ .none ∧ t = faulted t.faultCause s ∧ step t = .next t ∧
    hostExit t = some (.failure t.faultCause Config.hostFaultExit)

/-- R161: with WRAP the block never faults. -/
def Obligations.WrapNeverFaults : Prop :=
  ∀ (s t : State), s.runState = .running → s.cfg.bounds = .wrap → step s = .next t →
    t.runState ≠ .faulted ∧ t.faultCause = s.faultCause

/-- R112, R160: HLT is the only instruction that stops the block without a fault. -/
def Obligations.OnlyHaltHalts : Prop :=
  ∀ (i : Instr) (s t : State), s.runState = .running → exec i s = .next t →
    (t.runState = .halted ↔ i = .hlt) ∧ (i ≠ .hlt → t.runState = .running ∨ t.runState = .faulted)

/-- R28: only CMP writes FL. -/
def Obligations.OnlyCompareWritesFlags : Prop :=
  ∀ (s t : State), step s = .next t → t.fl ≠ s.fl →
    ∃ a b rest, decode s.cfg.opcodeMap (fetchBytes s) = .ok (.cmp a b, rest) ∧
      t.fl = cmpValue (s.reg (regOf a)) (s.reg (regOf b))

/-- R28: no instruction reads any bit of FL but FL[0]. Two states that agree on that bit and differ in FL alone
step to states that differ in FL alone. -/
def Obligations.OnlyBitZeroOfFlagsIsRead : Prop :=
  ∀ (i : Instr) (s : State) (f : Byte), f.getLsbD 0 = s.fl.getLsbD 0 →
    ∃ t u, exec i s = .next t ∧ exec i { s with fl := f } = .next u ∧ { u with fl := t.fl } = t ∧
      (u.fl = t.fl ∨ (u.fl = f ∧ t.fl = s.fl))

/-- R51: while RUNNING only PUSH and CALL write memory, one byte, at SP - 1. -/
def Obligations.OnlyPushAndCallWriteMemory : Prop :=
  ∀ (s t : State) (x : Byte), step s = .next t → t.readByte x ≠ s.readByte x →
    x = s.sp - 1 ∧ t.sp = x ∧
    ∃ a rest, decode s.cfg.opcodeMap (fetchBytes s) = .ok (.push a, rest) ∨
      decode s.cfg.opcodeMap (fetchBytes s) = .ok (.call a, rest)

/-- R38: OUT is append-only, a step appends at most one event, and each kind has its one emitter. -/
def Obligations.OutputEvents : Prop :=
  ∀ (s t : State), step s = .next t →
    t.out = s.out ∨
    (∃ a rest, decode s.cfg.opcodeMap (fetchBytes s) = .ok (.prn a, rest) ∧
      t.out = s.out ++ [.print (s.reg (regOf a))]) ∨
    (∃ a b rest, decode s.cfg.opcodeMap (fetchBytes s) = .ok (.cmp a b, rest) ∧
      t.out = s.out ++ [.flags t.fl]) ∨
    (s.cfg.opcodeMap.lookup (s.readByte s.pc) = none ∧ t.runState = .haltedUnknown ∧
      t.out = s.out ++ [.unknown (s.readByte s.pc)])

/-- R6: the parameters of an instantiation are fixed; no transaction changes them (log entry 1). -/
def Obligations.ParametersAreFixed : Prop :=
  ∀ (tx : Transaction) (s t : State), transact tx s = .next t → t.cfg = s.cfg

/-- R32, R33, R38: no program reads FAULT_CAUSE, FAULT_PC or OUT. Two running states that differ in these alone
step to the same registers, pc, FL, memory and RUN_STATE, and emit the same events. -/
def Obligations.StatusAndOutputAreUnread : Prop :=
  ∀ (s : State) (c : FaultCause) (p : Byte) (o : List Event), s.runState = .running →
    ∃ t u new, step s = .next t ∧
      step { s with faultCause := c, faultPc := p, out := o } = .next u ∧
      u.regs = t.regs ∧ u.pc = t.pc ∧ u.fl = t.fl ∧ u.mem = t.mem ∧ u.runState = t.runState ∧
      t.out = s.out ++ new ∧ u.out = o ++ new

/-! ### Host interface and reset -/

/-- R35. A terminal state is left by `reset` alone, whatever the host does and however many steps it asks for. -/
def Obligations.TerminalLeftOnlyByReset : Prop :=
  (∀ r : RunState, r.terminal = true ↔ r = .halted ∨ r = .haltedUnknown ∨ r = .faulted) ∧
  ∀ (s : State), s.runState.terminal = true →
    (∀ k, Sys2Proof.core.run k s = .next s) ∧
    (∀ tx, tx ≠ .reset → transact tx s = .next s) ∧
    (∃ t, transact .reset s = .next t ∧ t.runState = .idle)

/-- R40. The load contract: cell i gets byte i, the other cells and the rest of the state keep theirs, and an image
of more than 256 bytes is refused. -/
def Obligations.LoadContract : Prop :=
  ∀ (image : List Byte) (s : State), s.runState = .idle →
    (256 < image.length → loadImage image s = none) ∧
    (image.length ≤ 256 → ∃ t, loadImage image s = some t ∧
      (∀ k (h : k < image.length), t.readByte (BitVec.ofNat 8 k) = image[k]) ∧
      (∀ x : Byte, image.length ≤ x.toNat → t.readByte x = s.readByte x) ∧
      t = { s with mem := t.mem })

/-- R41. `run` sets RUNNING and writes nothing else; after a reset and a load it starts at pc 0 with SP 0xF4. -/
def Obligations.RunTransaction : Prop :=
  (∀ s : State, s.runState = .idle → transact .run s = .next { s with runState := .running }) ∧
  (∀ (cfg : Config) (image : List Byte) (s : State), loadImage image (State.resetWith cfg) = some s →
    ∃ t, transact .run s = .next t ∧ t.runState = .running ∧ t.pc = 0 ∧ t.sp = 0xF4)

/-- R44, R180. `reset` is the only way out of a terminal state, and it gives every piece of state its value, in every
RUN_STATE and for every choice of the launch parameters. -/
def Obligations.ResetValues : Prop :=
  (∀ (s t : State) (tx : Transaction), s.runState.terminal = true → transact tx s = .next t →
    t.runState ≠ s.runState → tx = .reset) ∧
  ∀ s : State, ∃ t, transact .reset s = .next t ∧
    (∀ (r : Nat) (h : r < 7), t.reg ⟨r, by omega⟩ = s.cfg.initRegs[r]) ∧
    t.reg 7 = 0xF4 ∧ t.pc = 0 ∧ t.fl = s.cfg.initFl ∧
    (∀ x, t.readByte x = Memory.read s.cfg.initMem x) ∧
    t.runState = .idle ∧ t.runState.code = 0 ∧ t.faultCause = .none ∧ t.faultCause.code = 0 ∧
    t.faultPc = 0 ∧ t.out = [] ∧ t.cfg = s.cfg

/-- State.reset is the reset of the default instantiation, CHECKED with the default map (R6). Zero for R0 to R6, for
FL and for every memory cell is the model's choice (log entries 3, 4 and 5). -/
def Obligations.DefaultReset : Prop :=
  transact .reset State.reset = .next State.reset ∧
  State.reset.cfg.bounds = .checked ∧ State.reset.cfg.opcodeMap = OpcodeMap.default ∧
  (∀ r : RegIdx, r ≠ 7 → State.reset.reg r = 0) ∧ State.reset.fl = 0 ∧
  (∀ x, State.reset.readByte x = 0)

/-- R43. Memory and the register state can be read while RUN_STATE is not RUNNING; reading changes nothing. -/
def Obligations.HostReads : Prop :=
  ∀ (s : State), s.runState ≠ .running →
    (∀ x, reply (.readMem x) s = .byte (s.readByte x) ∧ transact (.readMem x) s = .next s) ∧
    reply .readState s = .view ⟨s.regs, s.pc, s.fl, s.runState, s.faultCause, s.faultPc⟩ ∧
    transact .readState s = .next s

/-- R39, D20: `load` and `run` outside IDLE have no effect. The model's choice is that a read while RUNNING answers no
value (log entry 15, DEDUCED), and that consuming OUT answers the whole stream and removes nothing from it (log
entry 15, DESIGN CHOICE). -/
def Obligations.TransactionsOutsideTheirWindow : Prop :=
  (∀ (s : State) (x v : Byte), s.runState ≠ .idle →
    transact (.load x v) s = .next s ∧ transact .run s = .next s) ∧
  (∀ (s : State) (x : Byte), s.runState = .running →
    reply (.readMem x) s = .nothing ∧ reply .readState s = .nothing) ∧
  (∀ s : State, reply .readOut s = .events s.out ∧ transact .readOut s = .next s)

/-! ### Encoding -/

/-- R74, R77: the default map's formats, lengths and operand counts agree with its bytes, and it meets the
constraints. The byte values are general knowledge (G1, log entry 2). -/
def Obligations.DefaultOpcodeTable : Prop :=
  OpcodeMap.default.wf = true ∧
  Mnemonic.all.map (fun k => (k.name, (OpcodeMap.default.byte k).toNat, k.length)) =
    [("HLT", 0x01, 1), ("LDI", 0x82, 3), ("PRN", 0x47, 2), ("MUL", 0xA2, 3), ("ADD", 0xA0, 3),
     ("PUSH", 0x45, 2), ("POP", 0x46, 2), ("CALL", 0x50, 2), ("RET", 0x11, 1), ("CMP", 0xA7, 3),
     ("JEQ", 0x55, 2), ("JNE", 0x56, 2), ("JMP", 0x54, 2)]

/-- R76. A byte is unknown iff no row of the map has it, which under the default map is so of 243 values, and
fetching one halts the block. -/
def Obligations.UnknownBytes : Prop :=
  (∀ (map : OpcodeMap) (b : Byte), map.lookup b = none ↔ ∀ k, map.byte k ≠ b) ∧
  ((List.range 256).filter fun n => (OpcodeMap.default.lookup (BitVec.ofNat 8 n)).isNone).length = 243 ∧
  (∀ s : State, s.runState = .running → (∀ k, s.cfg.opcodeMap.byte k ≠ s.readByte s.pc) →
    ∃ t, step s = .next t ∧ t.runState = .haltedUnknown)

/-- R73, R78: under every map that meets R77, bits 7:6 of a known opcode are its operand count, so every byte
0xC0..0xFF is unknown. -/
def Obligations.TopBitsCountOperands : Prop :=
  ∀ (map : OpcodeMap) (b : Byte), map.wf = true →
    (∀ k, map.lookup b = some k → b.toNat / 64 = k.operandCount) ∧
    (0xC0 ≤ b.toNat → map.lookup b = none)

/-- Decode of encode, for every instruction, every operand byte and every map that meets R77, whatever follows
in memory (R70, R71, R79). -/
def Obligations.DecodeOfEncode : Prop :=
  ∀ (map : OpcodeMap) (i : Instr) (rest : List Byte), map.wf = true →
    decode map (encode map i ++ rest) = .ok (i, rest)

/-- The other direction, for every map at all: bytes that decode are the encoding of what they decode to. -/
def Obligations.EncodeOfDecode : Prop :=
  ∀ (map : OpcodeMap) (bytes rest : List Byte) (i : Instr), decode map bytes = .ok (i, rest) →
    bytes = encode map i ++ rest ∧ (encode map i).length = i.mnemonic.length

/-- Words written out from the encodings of R71 and R74, one per format and family. -/
def Obligations.WordsDecodeAsTheTableSays : Prop :=
  decode OpcodeMap.default [0x01] = .ok (.hlt, []) ∧
  decode OpcodeMap.default [0x82, 0x00, 0x08] = .ok (.ldi 0x00 0x08, []) ∧
  decode OpcodeMap.default [0x47, 0x07] = .ok (.prn 0x07, []) ∧
  decode OpcodeMap.default [0xA2, 0x00, 0x01] = .ok (.mul 0x00 0x01, []) ∧
  decode OpcodeMap.default [0x11, 0x02] = .ok (.ret, [0x02]) ∧
  decode OpcodeMap.default [0x55, 0x03] = .ok (.jeq 0x03, []) ∧
  decode OpcodeMap.default [0xFF] = .error (.unknownOpcode 0xFF)

/-- A table word placed for the next step is the instruction that step runs, at every pc where its bytes fit
(R41, R90, log entry 7). -/
def Obligations.FetchWordRunsNext : Prop :=
  ∀ (s : State) (nbits w : Nat) (i : Instr),
    s.cfg.opcodeMap = OpcodeMap.default → (s.cfg.bounds = .checked → s.pc.toNat ≤ 253) →
    decodeTableWord nbits w = some i →
    step (s.withFetchWord nbits w) = exec i (s.withFetchWord nbits w)

/-! ### Memory, invariants and laws of several steps -/

/-- Two memories in canonical form that read alike everywhere are equal data. -/
def Obligations.MemoryFormIsUnique : Prop :=
  ∀ m m' : Memory, Memory.wf m = true → Memory.wf m' = true →
    (∀ a : Byte, Memory.read m a = Memory.read m' a) → m = m'

/-- The invariant holds after reset, for every choice of valid parameters. -/
def Obligations.ResetMeetsInvariant : Prop :=
  (∀ cfg : Config, validConfig cfg = true → (State.resetWith cfg).Inv) ∧ State.reset.Inv

/-- Every step keeps the invariant: memory in canonical form, status registers that agree with each other and with
where the block stands, FL equal to the last FLAGS event, OUT that ends in the one UNKNOWN report. -/
def Obligations.StepKeepsInvariant : Prop :=
  ∀ s t : State, s.Inv → step s = .next t → t.Inv

/-- Every host transaction keeps the invariant. -/
def Obligations.TransactionsKeepInvariant : Prop :=
  ∀ (tx : Transaction) (s t : State), s.Inv → transact tx s = .next t → t.Inv

/-- The push-pop law (R123, derived). For PUSH R7 the cell holds the decremented SP, as R121 says; R123's clause on
the cell is read for a ≠ 7 (log entry 9). -/
def Obligations.PushThenPop : Prop :=
  ∀ (a b : Byte) (s t u : State), s.runState = .running →
    exec (.push a) s = .next t → t.runState = .running →
    exec (.pop b) t = .next u → u.runState = .running →
    u.readByte (s.sp - 1) = (if regOf a = 7 then s.sp - 1 else s.reg (regOf a)) ∧
    (regOf b = regOf a → u.regs = s.regs) ∧
    (regOf a ≠ 7 → regOf b ≠ 7 → u.reg (regOf b) = s.reg (regOf a) ∧ u.sp = s.sp) ∧
    (regOf a = 7 → regOf b ≠ 7 → u.reg (regOf b) = s.sp - 1 ∧ u.sp = s.sp) ∧
    (regOf a ≠ 7 → regOf b = 7 → u.sp = s.reg (regOf a) + 1)

/-- The call-return law (R143, derived), as two steps of the machine. What stands at the target is read after CALL's
store, and for q = 7 the register is SP itself, which ends as c + 3 (log entry 10). -/
def Obligations.CallThenReturn : Prop :=
  ∀ (s : State) (a target : Byte),
    s.runState = .running → s.cfg.opcodeMap.wf = true →
    s.readByte s.pc = s.cfg.opcodeMap.call → s.readByte (s.pc + 1) = a →
    s.pc.toNat ≤ 253 → names s a → regOf a ≠ 7 → s.sp ≠ 0 →
    s.reg (regOf a) = target → target.toNat ≤ 254 →
    ∃ u, step s = .next u ∧ u.pc = target ∧
      (u.readByte target = s.cfg.opcodeMap.ret → ∀ q : Byte, u.readByte (target + 1) = q → q.toNat ≤ 7 →
        (s.cfg.bounds = .checked → q = 7 → s.pc.toNat ≤ 252) →
        ∃ w, step u = .next w ∧ w.runState = .running ∧ w.pc = s.pc + 2 ∧
          w.readByte (s.sp - 1) = s.pc + 2 ∧
          (q ≠ 7 → w.reg (regOf q) = s.pc + 2 ∧ w.sp = s.sp) ∧
          (q = 7 → w.sp = s.pc + 3))

/-- R61: a store is seen by the very next fetch, wherever it falls. After any PUSH or CALL, each byte in reach of the
next fetch, opcode or operand, is the stored byte (R121, R140) where its address is the one `spdec` gave, and the byte
from before elsewhere. So CALL R7, which jumps to the cell it has just written, fetches the return address as its next
opcode; and a PUSH that lands on the next instruction replaces its opcode. -/
def Obligations.StoreSeenByNextFetch : Prop :=
  (∀ (i : Instr) (s t : State) (addr v : Byte), s.runState = .running → exec i s = .next t →
    t.runState = .running → spdec s.cfg.bounds s.sp = .ok addr → Stores s addr i v →
    ∀ k, k < maxLength → reaches t k →
      (fetchBytes t)[k]? = some (if t.pc + BitVec.ofNat 8 k = addr then v
        else s.readByte (t.pc + BitVec.ofNat 8 k))) ∧
  (∀ (a : Byte) (s t : State), s.runState = .running → regOf a = 7 → exec (.call a) s = .next t →
    t.runState = .running → (fetchBytes t).head? = some (s.pc + 2)) ∧
  (∀ (a : Byte) (s t : State), s.runState = .running → exec (.push a) s = .next t →
    t.runState = .running → s.sp - 1 = s.pc + 2 →
    (fetchBytes t).head? = some (if regOf a = 7 then s.sp - 1 else s.reg (regOf a)))

/-- R103, R152: a JMP to its own address is a hang. -/
def Obligations.SelfJumpHangs : Prop :=
  ∀ (s : State) (a : Byte), s.runState = .running → s.cfg.opcodeMap.wf = true →
    reaches s 1 → s.readByte s.pc = s.cfg.opcodeMap.jmp → s.readByte (s.pc + 1) = a → names s a →
    s.reg (regOf a) = s.pc → s.hangs

/-- R184 (derived): what a step that does not fault with CHECKED has respected. -/
def Obligations.NoFaultNeeds : Prop :=
  ∀ (s t : State) (i : Instr) (rest : List Byte),
    s.runState = .running → s.cfg.bounds = .checked →
    decode s.cfg.opcodeMap (fetchBytes s) = .ok (i, rest) →
    step s = .next t → t.runState ≠ .faulted →
    (∀ b ∈ i.regOperands, b.toNat ≤ 7) ∧
    (i = .ret → s.pc.toNat ≤ 254 ∧ (s.readByte (s.pc + 1)).toNat ≤ 7) ∧
    s.pc.toNat + i.mnemonic.length ≤ 256 ∧
    (s.pc.toNat + i.mnemonic.length = 256 →
      i = .hlt ∨ ∃ a, i = .jmp a ∨ (i = .jeq a ∧ s.fl.getLsbD 0 = true) ∨
        (i = .jne a ∧ s.fl.getLsbD 0 = false)) ∧
    (∀ a, i = .push a ∨ i = .call a → s.sp ≠ 0) ∧
    (∀ a, i = .pop a → spBeforeInc s (regOf a) (s.readByte s.sp) ≠ 255) ∧
    (i = .ret → spBeforeInc s (regOf (s.readByte (s.pc + 1))) (s.readByte s.sp) ≠ 255)

/-- R133 (derived): the result of ADD and MUL is symmetric in the operands, and the other operand's register keeps
its value when the two differ. -/
def Obligations.AddMulSymmetric : Prop :=
  ∀ (op : Byte → Byte → Instr) (a b : Byte) (s t u : State), op = Instr.add ∨ op = Instr.mul →
    s.runState = .running → exec (op a b) s = .next t → t.runState = .running →
    exec (op b a) s = .next u →
    u.runState = .running ∧ t.reg (regOf a) = u.reg (regOf b) ∧
    (regOf a ≠ regOf b → t.reg (regOf b) = s.reg (regOf b))
end

