-- ==== Sys2Proof/Laws/State.lean ====
section
/-! SUPPORT. One lemma per field per update of State, and the reads of registers and memory through each update. -/

namespace Sys2Proof.Machine

/-! ### `x[i] <- v` -/

@[simp] theorem State.setReg_cfg (s : State) (i : RegIdx) (v : Byte) :
    (s.setReg i v).cfg = s.cfg := rfl
@[simp] theorem State.setReg_regs (s : State) (i : RegIdx) (v : Byte) :
    (s.setReg i v).regs = s.regs.set i v := rfl
@[simp] theorem State.setReg_pc (s : State) (i : RegIdx) (v : Byte) :
    (s.setReg i v).pc = s.pc := rfl
@[simp] theorem State.setReg_fl (s : State) (i : RegIdx) (v : Byte) :
    (s.setReg i v).fl = s.fl := rfl
@[simp] theorem State.setReg_mem (s : State) (i : RegIdx) (v : Byte) :
    (s.setReg i v).mem = s.mem := rfl
@[simp] theorem State.setReg_runState (s : State) (i : RegIdx) (v : Byte) :
    (s.setReg i v).runState = s.runState := rfl
@[simp] theorem State.setReg_faultCause (s : State) (i : RegIdx) (v : Byte) :
    (s.setReg i v).faultCause = s.faultCause := rfl
@[simp] theorem State.setReg_faultPc (s : State) (i : RegIdx) (v : Byte) :
    (s.setReg i v).faultPc = s.faultPc := rfl
@[simp] theorem State.setReg_out (s : State) (i : RegIdx) (v : Byte) :
    (s.setReg i v).out = s.out := rfl

/-! ### `pc <- v` -/

@[simp] theorem State.setPc_cfg (s : State) (v : Byte) :
    (s.setPc v).cfg = s.cfg := rfl
@[simp] theorem State.setPc_regs (s : State) (v : Byte) :
    (s.setPc v).regs = s.regs := rfl
@[simp] theorem State.setPc_pc (s : State) (v : Byte) :
    (s.setPc v).pc = v := rfl
@[simp] theorem State.setPc_fl (s : State) (v : Byte) :
    (s.setPc v).fl = s.fl := rfl
@[simp] theorem State.setPc_mem (s : State) (v : Byte) :
    (s.setPc v).mem = s.mem := rfl
@[simp] theorem State.setPc_runState (s : State) (v : Byte) :
    (s.setPc v).runState = s.runState := rfl
@[simp] theorem State.setPc_faultCause (s : State) (v : Byte) :
    (s.setPc v).faultCause = s.faultCause := rfl
@[simp] theorem State.setPc_faultPc (s : State) (v : Byte) :
    (s.setPc v).faultPc = s.faultPc := rfl
@[simp] theorem State.setPc_out (s : State) (v : Byte) :
    (s.setPc v).out = s.out := rfl

/-! ### `FL <- v` -/

@[simp] theorem State.setFl_cfg (s : State) (v : Byte) :
    (s.setFl v).cfg = s.cfg := rfl
@[simp] theorem State.setFl_regs (s : State) (v : Byte) :
    (s.setFl v).regs = s.regs := rfl
@[simp] theorem State.setFl_pc (s : State) (v : Byte) :
    (s.setFl v).pc = s.pc := rfl
@[simp] theorem State.setFl_fl (s : State) (v : Byte) :
    (s.setFl v).fl = v := rfl
@[simp] theorem State.setFl_mem (s : State) (v : Byte) :
    (s.setFl v).mem = s.mem := rfl
@[simp] theorem State.setFl_runState (s : State) (v : Byte) :
    (s.setFl v).runState = s.runState := rfl
@[simp] theorem State.setFl_faultCause (s : State) (v : Byte) :
    (s.setFl v).faultCause = s.faultCause := rfl
@[simp] theorem State.setFl_faultPc (s : State) (v : Byte) :
    (s.setFl v).faultPc = s.faultPc := rfl
@[simp] theorem State.setFl_out (s : State) (v : Byte) :
    (s.setFl v).out = s.out := rfl

/-! ### `MemWrite` -/

@[simp] theorem State.writeByte_cfg (s : State) (a v : Byte) :
    (s.writeByte a v).cfg = s.cfg := rfl
@[simp] theorem State.writeByte_regs (s : State) (a v : Byte) :
    (s.writeByte a v).regs = s.regs := rfl
@[simp] theorem State.writeByte_pc (s : State) (a v : Byte) :
    (s.writeByte a v).pc = s.pc := rfl
@[simp] theorem State.writeByte_fl (s : State) (a v : Byte) :
    (s.writeByte a v).fl = s.fl := rfl
@[simp] theorem State.writeByte_mem (s : State) (a v : Byte) :
    (s.writeByte a v).mem = Memory.write s.mem a v := rfl
@[simp] theorem State.writeByte_runState (s : State) (a v : Byte) :
    (s.writeByte a v).runState = s.runState := rfl
@[simp] theorem State.writeByte_faultCause (s : State) (a v : Byte) :
    (s.writeByte a v).faultCause = s.faultCause := rfl
@[simp] theorem State.writeByte_faultPc (s : State) (a v : Byte) :
    (s.writeByte a v).faultPc = s.faultPc := rfl
@[simp] theorem State.writeByte_out (s : State) (a v : Byte) :
    (s.writeByte a v).out = s.out := rfl

/-! ### OUT -/

@[simp] theorem State.emit_cfg (s : State) (e : Event) :
    (s.emit e).cfg = s.cfg := rfl
@[simp] theorem State.emit_regs (s : State) (e : Event) :
    (s.emit e).regs = s.regs := rfl
@[simp] theorem State.emit_pc (s : State) (e : Event) :
    (s.emit e).pc = s.pc := rfl
@[simp] theorem State.emit_fl (s : State) (e : Event) :
    (s.emit e).fl = s.fl := rfl
@[simp] theorem State.emit_mem (s : State) (e : Event) :
    (s.emit e).mem = s.mem := rfl
@[simp] theorem State.emit_runState (s : State) (e : Event) :
    (s.emit e).runState = s.runState := rfl
@[simp] theorem State.emit_faultCause (s : State) (e : Event) :
    (s.emit e).faultCause = s.faultCause := rfl
@[simp] theorem State.emit_faultPc (s : State) (e : Event) :
    (s.emit e).faultPc = s.faultPc := rfl
@[simp] theorem State.emit_out (s : State) (e : Event) :
    (s.emit e).out = s.out ++ [e] := rfl

/-! ### RUN_STATE -/

@[simp] theorem State.setRunState_cfg (s : State) (r : RunState) :
    (s.setRunState r).cfg = s.cfg := rfl
@[simp] theorem State.setRunState_regs (s : State) (r : RunState) :
    (s.setRunState r).regs = s.regs := rfl
@[simp] theorem State.setRunState_pc (s : State) (r : RunState) :
    (s.setRunState r).pc = s.pc := rfl
@[simp] theorem State.setRunState_fl (s : State) (r : RunState) :
    (s.setRunState r).fl = s.fl := rfl
@[simp] theorem State.setRunState_mem (s : State) (r : RunState) :
    (s.setRunState r).mem = s.mem := rfl
@[simp] theorem State.setRunState_runState (s : State) (r : RunState) :
    (s.setRunState r).runState = r := rfl
@[simp] theorem State.setRunState_faultCause (s : State) (r : RunState) :
    (s.setRunState r).faultCause = s.faultCause := rfl
@[simp] theorem State.setRunState_faultPc (s : State) (r : RunState) :
    (s.setRunState r).faultPc = s.faultPc := rfl
@[simp] theorem State.setRunState_out (s : State) (r : RunState) :
    (s.setRunState r).out = s.out := rfl

/-! ### a range fault -/

@[simp] theorem takeFault_cfg (c : RangeFault) (s : State) :
    (takeFault c s).cfg = s.cfg := rfl
@[simp] theorem takeFault_regs (c : RangeFault) (s : State) :
    (takeFault c s).regs = s.regs := rfl
@[simp] theorem takeFault_pc (c : RangeFault) (s : State) :
    (takeFault c s).pc = s.pc := rfl
@[simp] theorem takeFault_fl (c : RangeFault) (s : State) :
    (takeFault c s).fl = s.fl := rfl
@[simp] theorem takeFault_mem (c : RangeFault) (s : State) :
    (takeFault c s).mem = s.mem := rfl
@[simp] theorem takeFault_runState (c : RangeFault) (s : State) :
    (takeFault c s).runState = .faulted := rfl
@[simp] theorem takeFault_faultCause (c : RangeFault) (s : State) :
    (takeFault c s).faultCause = c.cause := rfl
@[simp] theorem takeFault_faultPc (c : RangeFault) (s : State) :
    (takeFault c s).faultPc = s.pc := rfl
@[simp] theorem takeFault_out (c : RangeFault) (s : State) :
    (takeFault c s).out = s.out := rfl

/-! ### the unknown-instruction halt -/

@[simp] theorem unknownHalt_cfg (op : Byte) (s : State) :
    (unknownHalt op s).cfg = s.cfg := rfl
@[simp] theorem unknownHalt_regs (op : Byte) (s : State) :
    (unknownHalt op s).regs = s.regs := rfl
@[simp] theorem unknownHalt_pc (op : Byte) (s : State) :
    (unknownHalt op s).pc = s.pc := rfl
@[simp] theorem unknownHalt_fl (op : Byte) (s : State) :
    (unknownHalt op s).fl = s.fl := rfl
@[simp] theorem unknownHalt_mem (op : Byte) (s : State) :
    (unknownHalt op s).mem = s.mem := rfl
@[simp] theorem unknownHalt_runState (op : Byte) (s : State) :
    (unknownHalt op s).runState = .haltedUnknown := rfl
@[simp] theorem unknownHalt_faultCause (op : Byte) (s : State) :
    (unknownHalt op s).faultCause = s.faultCause := rfl
@[simp] theorem unknownHalt_faultPc (op : Byte) (s : State) :
    (unknownHalt op s).faultPc = s.pc := rfl
@[simp] theorem unknownHalt_out (op : Byte) (s : State) :
    (unknownHalt op s).out = s.out ++ [.unknown op] := rfl

/-! ### Registers and memory read through an update -/

/-- A register write is seen by a read of that register and by no other. -/
theorem State.reg_setReg (s : State) (i j : RegIdx) (v : Byte) :
    (s.setReg i v).reg j = if j = i then v else s.reg j := by
  simp [State.setReg, State.reg, Vector.getElem_set, Fin.ext_iff, eq_comm]

@[simp] theorem State.reg_setReg_self (s : State) (i : RegIdx) (v : Byte) :
    (s.setReg i v).reg i = v := by simp [State.reg_setReg]

theorem State.reg_setReg_ne (s : State) {i j : RegIdx} (v : Byte) (h : j ≠ i) :
    (s.setReg i v).reg j = s.reg j := by simp [State.reg_setReg, h]

@[simp] theorem State.setReg_readByte (s : State) (i : RegIdx) (v : Byte) (x : Byte) :
    (s.setReg i v).readByte x = s.readByte x := rfl
@[simp] theorem State.setReg_flagE (s : State) (i : RegIdx) (v : Byte) :
    (s.setReg i v).flagE = s.flagE := rfl
@[simp] theorem State.setPc_reg (s : State) (v : Byte) (j : RegIdx) :
    (s.setPc v).reg j = s.reg j := rfl
@[simp] theorem State.setPc_sp (s : State) (v : Byte) :
    (s.setPc v).sp = s.sp := rfl
@[simp] theorem State.setPc_readByte (s : State) (v : Byte) (x : Byte) :
    (s.setPc v).readByte x = s.readByte x := rfl
@[simp] theorem State.setPc_flagE (s : State) (v : Byte) :
    (s.setPc v).flagE = s.flagE := rfl
@[simp] theorem State.setFl_reg (s : State) (v : Byte) (j : RegIdx) :
    (s.setFl v).reg j = s.reg j := rfl
@[simp] theorem State.setFl_sp (s : State) (v : Byte) :
    (s.setFl v).sp = s.sp := rfl
@[simp] theorem State.setFl_readByte (s : State) (v : Byte) (x : Byte) :
    (s.setFl v).readByte x = s.readByte x := rfl
@[simp] theorem State.writeByte_reg (s : State) (a v : Byte) (j : RegIdx) :
    (s.writeByte a v).reg j = s.reg j := rfl
@[simp] theorem State.writeByte_sp (s : State) (a v : Byte) :
    (s.writeByte a v).sp = s.sp := rfl
@[simp] theorem State.writeByte_flagE (s : State) (a v : Byte) :
    (s.writeByte a v).flagE = s.flagE := rfl
@[simp] theorem State.emit_reg (s : State) (e : Event) (j : RegIdx) :
    (s.emit e).reg j = s.reg j := rfl
@[simp] theorem State.emit_sp (s : State) (e : Event) :
    (s.emit e).sp = s.sp := rfl
@[simp] theorem State.emit_readByte (s : State) (e : Event) (x : Byte) :
    (s.emit e).readByte x = s.readByte x := rfl
@[simp] theorem State.emit_flagE (s : State) (e : Event) :
    (s.emit e).flagE = s.flagE := rfl
@[simp] theorem State.setRunState_reg (s : State) (r : RunState) (j : RegIdx) :
    (s.setRunState r).reg j = s.reg j := rfl
@[simp] theorem State.setRunState_sp (s : State) (r : RunState) :
    (s.setRunState r).sp = s.sp := rfl
@[simp] theorem State.setRunState_readByte (s : State) (r : RunState) (x : Byte) :
    (s.setRunState r).readByte x = s.readByte x := rfl
@[simp] theorem State.setRunState_flagE (s : State) (r : RunState) :
    (s.setRunState r).flagE = s.flagE := rfl
@[simp] theorem takeFault_reg (c : RangeFault) (s : State) (j : RegIdx) :
    (takeFault c s).reg j = s.reg j := rfl
@[simp] theorem takeFault_sp (c : RangeFault) (s : State) :
    (takeFault c s).sp = s.sp := rfl
@[simp] theorem takeFault_readByte (c : RangeFault) (s : State) (x : Byte) :
    (takeFault c s).readByte x = s.readByte x := rfl
@[simp] theorem takeFault_flagE (c : RangeFault) (s : State) :
    (takeFault c s).flagE = s.flagE := rfl
@[simp] theorem unknownHalt_reg (op : Byte) (s : State) (j : RegIdx) :
    (unknownHalt op s).reg j = s.reg j := rfl
@[simp] theorem unknownHalt_sp (op : Byte) (s : State) :
    (unknownHalt op s).sp = s.sp := rfl
@[simp] theorem unknownHalt_readByte (op : Byte) (s : State) (x : Byte) :
    (unknownHalt op s).readByte x = s.readByte x := rfl
@[simp] theorem unknownHalt_flagE (op : Byte) (s : State) :
    (unknownHalt op s).flagE = s.flagE := rfl

/-- Setting SP and reading it back. -/
@[simp] theorem State.sp_setReg_spIdx (s : State) (v : Byte) : (s.setReg spIdx v).sp = v :=
  State.reg_setReg_self s spIdx v

/-- SP is R7 (10_state.md R21). -/
theorem State.sp_eq_reg (s : State) : s.sp = s.reg 7 := rfl

end Sys2Proof.Machine
end

