-- ==== Sys2Proof/Laws/Memory.lean ====
section
/-! SUPPORT. Memory as data: read after write, and the canonical form that every operation keeps. -/

namespace Sys2Proof.Machine

theorem Memory.lookup_erase (m : Memory) (a b : Nat) :
    Memory.lookup (Memory.erase m a) b = if b = a then Memory.unlisted else Memory.lookup m b := by
  induction m with
  | nil => simp [Memory.erase, Memory.lookup]
  | cons c m ih =>
    obtain ⟨k, w⟩ := c
    by_cases hak : a = k
    · subst hak
      by_cases hb : b = a
      · subst hb; simpa [Memory.erase, Memory.lookup] using ih
      · simp [Memory.erase, Memory.lookup, ih, hb]
    · by_cases hbk : b = k
      · subst hbk
        simp [Memory.erase, Memory.lookup, hak, Ne.symm hak]
      · simp [Memory.erase, Memory.lookup, hak, hbk, ih]

/-- Inserting an entry for an address that reads as unlisted. -/
theorem Memory.lookup_insert (m : Memory) (a b : Nat) (v : Byte)
    (fresh : ∀ c ∈ m, c.1 ≠ a) :
    Memory.lookup (Memory.insert m a v) b = if b = a then v else Memory.lookup m b := by
  induction m with
  | nil => simp [Memory.insert, Memory.lookup]
  | cons c m ih =>
    obtain ⟨k, w⟩ := c
    have hk : k ≠ a := fresh (k, w) (by simp)
    have ih := ih fun c hc => fresh c (by simp [hc])
    by_cases hlt : a < k
    · simp [Memory.insert, Memory.lookup, hlt]
    · by_cases hbk : b = k
      · subst hbk
        simp [Memory.insert, Memory.lookup, hlt, hk]
      · simp [Memory.insert, Memory.lookup, hlt, hbk, ih]

theorem Memory.erase_fresh (m : Memory) (a : Nat) : ∀ c ∈ Memory.erase m a, c.1 ≠ a := by
  induction m with
  | nil => simp [Memory.erase]
  | cons c m ih =>
    obtain ⟨k, w⟩ := c
    by_cases hak : a = k
    · subst hak; simpa only [Memory.erase, if_true] using ih
    · simp only [Memory.erase, hak, if_false, List.mem_cons, forall_eq_or_imp]
      exact ⟨Ne.symm hak, ih⟩

/-- Read after write, in any memory. -/
theorem Memory.read_write (m : Memory) (a b v : Byte) :
    Memory.read (Memory.write m a v) b = if b = a then v else Memory.read m b := by
  have hab : (b.toNat = a.toNat) = (b = a) := by rw [BitVec.toNat_inj]
  by_cases hv : v = Memory.unlisted
  · simp [Memory.write, Memory.read, hv, Memory.lookup_erase, hab]
  · simp only [Memory.write, Memory.read, hv, if_false]
    rw [Memory.lookup_insert _ _ _ _ (Memory.erase_fresh m a.toNat), Memory.lookup_erase]
    by_cases h : b = a <;> simp [hab, h]

/-- A state's byte read after a write. -/
theorem State.readByte_writeByte (s : State) (a b v : Byte) :
    (s.writeByte a v).readByte b = if b = a then v else s.readByte b :=
  Memory.read_write s.mem a b v

/-- The canonical form from a higher address is the canonical form from a lower one. -/
theorem Memory.wfFrom_mono {lo lo' : Nat} {m : Memory} (h : Memory.wfFrom lo m = true) (hle : lo' ≤ lo) :
    Memory.wfFrom lo' m = true := by
  cases m with
  | nil => rfl
  | cons c m =>
    obtain ⟨k, w⟩ := c
    simp only [Memory.wfFrom, Bool.and_eq_true, decide_eq_true_eq] at h ⊢
    exact ⟨⟨⟨by omega, h.1.1.2⟩, h.1.2⟩, h.2⟩

theorem Memory.wfFrom_erase {lo : Nat} {m : Memory} (a : Nat) (h : Memory.wfFrom lo m = true) :
    Memory.wfFrom lo (Memory.erase m a) = true := by
  induction m generalizing lo with
  | nil => exact h
  | cons c m ih =>
    obtain ⟨k, w⟩ := c
    simp only [Memory.wfFrom, Bool.and_eq_true, decide_eq_true_eq] at h
    by_cases hak : a = k
    · simpa [Memory.erase, hak] using hak ▸ Memory.wfFrom_mono (ih h.2) (by omega)
    · simp only [Memory.erase, hak, if_false, Memory.wfFrom, Bool.and_eq_true, decide_eq_true_eq]
      exact ⟨h.1, ih h.2⟩

theorem Memory.wfFrom_insert {lo : Nat} {m : Memory} {a : Nat} {v : Byte}
    (h : Memory.wfFrom lo m = true) (hlo : lo ≤ a) (ha : a < 256) (hv : v ≠ Memory.unlisted)
    (fresh : ∀ c ∈ m, c.1 ≠ a) : Memory.wfFrom lo (Memory.insert m a v) = true := by
  induction m generalizing lo with
  | nil => simp [Memory.insert, Memory.wfFrom, hlo, ha, hv]
  | cons c m ih =>
    obtain ⟨k, w⟩ := c
    have hk : k ≠ a := fresh (k, w) (by simp)
    simp only [Memory.wfFrom, Bool.and_eq_true, decide_eq_true_eq] at h
    by_cases hlt : a < k
    · simp only [Memory.insert, hlt, if_true, Memory.wfFrom, Bool.and_eq_true, decide_eq_true_eq]
      exact ⟨⟨⟨hlo, ha⟩, hv⟩, ⟨⟨by omega, h.1.1.2⟩, h.1.2⟩, h.2⟩
    · simp only [Memory.insert, hlt, if_false, Memory.wfFrom, Bool.and_eq_true, decide_eq_true_eq]
      exact ⟨h.1, ih h.2 (by omega) fun c hc => fresh c (by simp [hc])⟩

/-- The one writer of memory keeps the canonical form. -/
theorem Memory.wf_write {m : Memory} (a v : Byte) (h : Memory.wf m = true) :
    Memory.wf (Memory.write m a v) = true := by
  unfold Memory.write Memory.wf
  split
  · exact Memory.wfFrom_erase _ h
  · exact Memory.wfFrom_insert (Memory.wfFrom_erase _ h) (Nat.zero_le _) a.isLt ‹_›
      (Memory.erase_fresh m a.toNat)

/-- `MemWrite` on a state keeps the canonical form. -/
theorem State.wf_writeByte {s : State} (a v : Byte) (h : Memory.wf s.mem = true) :
    Memory.wf (s.writeByte a v).mem = true :=
  Memory.wf_write a v h

/-- The memory of State.reset is in canonical form. -/
theorem reset_memory_wf : Memory.wf State.reset.mem = true := rfl

end Sys2Proof.Machine
end

