-- ==== Sys2Proof/Laws/Operands.lean ====
section
/-! SUPPORT. What each checked helper can answer, and what a commit can: later proofs cite these and unfold none of
the helpers. -/

namespace Sys2Proof.Machine

/-! ### Binds of Except, for the meanings' pseudocode -/

@[simp] theorem bind_ok {ε α β : Type} (x : α) (f : α → Except ε β) : (Except.ok x >>= f) = f x := rfl

@[simp] theorem bind_error {ε α β : Type} (e : ε) (f : α → Except ε β) :
    ((Except.error e : Except ε α) >>= f) = .error e := rfl

/-- A sequence answers iff both its parts do. -/
theorem bind_eq_ok {ε α β : Type} {x : Except ε α} {f : α → Except ε β} {r : β} :
    (x >>= f) = .ok r ↔ ∃ a, x = .ok a ∧ f a = .ok r := by
  cases x <;> simp

/-- A sequence raises what its first part raises, or its second after the first answered. -/
theorem bind_eq_error {ε α β : Type} {x : Except ε α} {f : α → Except ε β} {e : ε} :
    (x >>= f) = .error e ↔ x = .error e ∨ ∃ a, x = .ok a ∧ f a = .error e := by
  cases x <;> simp

/-! ### seq, ridx, spdec, spinc -/

/-- `seq` answers where it does not raise, with the address mod 256 (R94). -/
theorem seq_ok {mode : BoundsMode} {pc : Byte} {k : Nat}
    (h : mode = .checked → pc.toNat + k ≤ 255) : seq mode pc k = .ok (pc + BitVec.ofNat 8 k) := by
  have sum : pc + BitVec.ofNat 8 k = BitVec.ofNat 8 (pc.toNat + k) := by
    apply BitVec.eq_of_toNat_eq; simp [BitVec.toNat_add]
  unfold seq
  split
  · rw [sum]
  · cases mode with
    | checked => exact absurd (h rfl) ‹_›
    | wrap =>
      rw [sum]
      exact congrArg Except.ok (BitVec.eq_of_toNat_eq (by simp))

/-- `seq` raises PC_RANGE past address 255 with CHECKED (R94). -/
theorem seq_error {pc : Byte} {k : Nat} (h : 255 < pc.toNat + k) :
    seq .checked pc k = .error .pcRange := by
  simp [seq, Nat.not_le.mpr h]

/-- Everything `seq` can do. -/
theorem seq_cases (mode : BoundsMode) (pc : Byte) (k : Nat) :
    ((mode = .checked → pc.toNat + k ≤ 255) ∧ seq mode pc k = .ok (pc + BitVec.ofNat 8 k)) ∨
    (mode = .checked ∧ 255 < pc.toNat + k ∧ seq mode pc k = .error .pcRange) := by
  by_cases h : mode = .checked → pc.toNat + k ≤ 255
  · exact .inl ⟨h, seq_ok h⟩
  · rw [Classical.not_imp, Nat.not_le] at h
    obtain ⟨rfl, h⟩ := h
    exact .inr ⟨rfl, h, seq_error h⟩

/-- `ridx` answers where it does not raise, with the register of the low three bits (R95). -/
theorem ridx_ok {mode : BoundsMode} {b : Byte} (h : mode = .checked → b.toNat ≤ 7) :
    ridx mode b = .ok (regOf b) := by
  unfold ridx
  split
  · exact congrArg Except.ok (Fin.ext (Nat.mod_eq_of_lt (by omega)).symm)
  · cases mode with
    | checked => exact absurd (h rfl) ‹_›
    | wrap => simp [lowIdx, regOf]

/-- `ridx` raises REG_INDEX above 7 with CHECKED (R95). -/
theorem ridx_error {b : Byte} (h : 7 < b.toNat) : ridx .checked b = .error .regIndex := by
  simp [ridx, Nat.not_le.mpr h]

/-- Everything `ridx` can do. -/
theorem ridx_cases (mode : BoundsMode) (b : Byte) :
    ((mode = .checked → b.toNat ≤ 7) ∧ ridx mode b = .ok (regOf b)) ∨
    (mode = .checked ∧ 7 < b.toNat ∧ ridx mode b = .error .regIndex) := by
  by_cases h : mode = .checked → b.toNat ≤ 7
  · exact .inl ⟨h, ridx_ok h⟩
  · rw [Classical.not_imp, Nat.not_le] at h
    obtain ⟨rfl, h⟩ := h
    exact .inr ⟨rfl, h, ridx_error h⟩

/-- `spdec` answers where it does not raise (R96). -/
theorem spdec_ok {mode : BoundsMode} {v : Byte} (h : mode = .checked → v ≠ 0) :
    spdec mode v = .ok (v - 1) := by
  unfold spdec
  split
  · exact congrArg Except.ok (by bv_omega)
  · have hv : v = 0 := by bv_omega
    cases mode with
    | checked => exact absurd hv (h rfl)
    | wrap => subst hv; rfl

/-- `spdec` raises SP_RANGE at 0 with CHECKED (R96). -/
theorem spdec_error : spdec .checked 0 = .error .spRange := rfl

/-- Everything `spdec` can do. -/
theorem spdec_cases (mode : BoundsMode) (v : Byte) :
    ((mode = .checked → v ≠ 0) ∧ spdec mode v = .ok (v - 1)) ∨
    (mode = .checked ∧ v = 0 ∧ spdec mode v = .error .spRange) := by
  by_cases h : mode = .checked → v ≠ 0
  · exact .inl ⟨h, spdec_ok h⟩
  · rw [Classical.not_imp, not_not] at h
    obtain ⟨rfl, rfl⟩ := h
    exact .inr ⟨rfl, rfl, spdec_error⟩

/-- `spinc` answers where it does not raise (R97). -/
theorem spinc_ok {mode : BoundsMode} {v : Byte} (h : mode = .checked → v ≠ 255) :
    spinc mode v = .ok (v + 1) := by
  unfold spinc
  split
  · exact congrArg Except.ok (by bv_omega)
  · have hv : v = 255 := by bv_omega
    cases mode with
    | checked => exact absurd hv (h rfl)
    | wrap => subst hv; rfl

/-- `spinc` raises SP_RANGE at 255 with CHECKED (R97). -/
theorem spinc_error : spinc .checked 255 = .error .spRange := rfl

/-- Everything `spinc` can do. -/
theorem spinc_cases (mode : BoundsMode) (v : Byte) :
    ((mode = .checked → v ≠ 255) ∧ spinc mode v = .ok (v + 1)) ∨
    (mode = .checked ∧ v = 255 ∧ spinc mode v = .error .spRange) := by
  by_cases h : mode = .checked → v ≠ 255
  · exact .inl ⟨h, spinc_ok h⟩
  · rw [Classical.not_imp, not_not] at h
    obtain ⟨rfl, rfl⟩ := h
    exact .inr ⟨rfl, rfl, spinc_error⟩

/-! ### The operand fetch, the next pc, the reading of the stack and the commit -/

/-- The operand fetch passes where the last operand address does (R93). -/
theorem operandFetch_ok {s : State} {n : Nat} (h : reaches s n) : operandFetch s n = .ok () := by
  induction n with
  | zero => rfl
  | succ n ih =>
    rw [operandFetch, ih fun hc => by have := h hc; omega, bind_ok, seq_ok h, bind_ok]

/-- The operand fetch raises PC_RANGE where the last operand address does (R93). -/
theorem operandFetch_error {s : State} {n : Nat} (hc : s.cfg.bounds = .checked)
    (h : 255 < s.pc.toNat + n) : operandFetch s n = .error .pcRange := by
  induction n with
  | zero => have := s.pc.isLt; omega
  | succ n ih =>
    by_cases hn : 255 < s.pc.toNat + n
    · rw [operandFetch, ih hn, bind_error]
    · rw [operandFetch, operandFetch_ok fun _ => by omega, bind_ok, hc, seq_error h, bind_error]

/-- Everything the operand fetch can do. -/
theorem operandFetch_cases (s : State) (n : Nat) :
    (reaches s n ∧ operandFetch s n = .ok ()) ∨
    (s.cfg.bounds = .checked ∧ 255 < s.pc.toNat + n ∧ operandFetch s n = .error .pcRange) := by
  by_cases h : reaches s n
  · exact .inl ⟨h, operandFetch_ok h⟩
  · rw [reaches, Classical.not_imp, Nat.not_le] at h
    exact .inr ⟨h.1, h.2, operandFetch_error h.1 h.2⟩

/-- The next sequential pc where it is in range. -/
theorem advance_ok {s w : State} {k : Nat} (h : reaches s k) :
    advance s k w = .ok (w.setPc (s.pc + BitVec.ofNat 8 k)) := by
  rw [advance, seq_ok h, bind_ok]

/-- The next sequential pc past address 255 with CHECKED. -/
theorem advance_error {s w : State} {k : Nat} (hc : s.cfg.bounds = .checked)
    (h : 255 < s.pc.toNat + k) : advance s k w = .error .pcRange := by
  rw [advance, hc, seq_error h, bind_error]

/-- Everything the write of the next sequential pc can do. -/
theorem advance_cases (s w : State) (k : Nat) :
    (reaches s k ∧ advance s k w = .ok (w.setPc (s.pc + BitVec.ofNat 8 k))) ∨
    (s.cfg.bounds = .checked ∧ 255 < s.pc.toNat + k ∧ advance s k w = .error .pcRange) := by
  by_cases h : reaches s k
  · exact .inl ⟨h, advance_ok h⟩
  · rw [reaches, Classical.not_imp, Nat.not_le] at h
    exact .inr ⟨h.1, h.2, advance_error h.1 h.2⟩

/-- What POP and RET do to the working copy when SP can be incremented (R122, R141). -/
theorem popInto_ok {s : State} {i : RegIdx} {v : Byte}
    (h : s.cfg.bounds = .checked → (s.setReg i v).sp ≠ 255) :
    popInto i v s = .ok ((s.setReg i v).setReg spIdx ((s.setReg i v).sp + 1)) := by
  rw [popInto, spinc_ok h, bind_ok]

/-- The fault of POP and RET at SP 255 (R122, R141). -/
theorem popInto_error {s : State} {i : RegIdx} {v : Byte} (hc : s.cfg.bounds = .checked)
    (h : (s.setReg i v).sp = 255) : popInto i v s = .error .spRange := by
  rw [popInto, hc, h, spinc_error, bind_error]

/-- Everything the reading of the stack can do. -/
theorem popInto_cases (s : State) (i : RegIdx) (v : Byte) :
    ((s.cfg.bounds = .checked → (s.setReg i v).sp ≠ 255) ∧
      popInto i v s = .ok ((s.setReg i v).setReg spIdx ((s.setReg i v).sp + 1))) ∨
    (s.cfg.bounds = .checked ∧ (s.setReg i v).sp = 255 ∧ popInto i v s = .error .spRange) := by
  by_cases h : s.cfg.bounds = .checked → (s.setReg i v).sp ≠ 255
  · exact .inl ⟨h, popInto_ok h⟩
  · rw [Classical.not_imp, not_not] at h
    exact .inr ⟨h.1, h.2, popInto_error h.1 h.2⟩

@[simp] theorem commit_ok (s s' : State) : commit s (.ok s') = .next s' := rfl

@[simp] theorem commit_error (s : State) (c : RangeFault) :
    commit s (.error c) = .next (takeFault c s) := rfl

/-- Everything a commit can answer (R99): the working copy, or the fault taken at the state before the step. -/
theorem commit_cases {s t : State} {w : Working} (h : commit s w = .next t) :
    w = .ok t ∨ ∃ c, w = .error c ∧ t = takeFault c s := by
  cases w with
  | ok s' => simp only [commit_ok, Host.Outcome.next.injEq] at h; exact .inl (congrArg _ h)
  | error c => simp only [commit_error, Host.Outcome.next.injEq] at h; exact .inr ⟨c, rfl, h.symm⟩

/-- A commit always has a next state. -/
theorem commit_next (s : State) (w : Working) : ∃ t, commit s w = .next t := by
  cases w <;> exact ⟨_, rfl⟩

end Sys2Proof.Machine
end

