-- ==== Sys2Proof/Laws/Step.lean ====
section
/-! SUPPORT. What a fetch and a step can answer: one lemma each. -/

namespace Sys2Proof.Machine

/-- A fetch outside RUNNING finds nothing. -/
theorem fetchDecode_not_running {s : State} (h : s.runState ≠ .running) : fetchDecode s = .nothing := by
  unfold fetchDecode
  split <;> simp_all

/-- A fetch while RUNNING, in terms of the decoder alone. -/
theorem fetchDecode_running {s : State} (h : s.runState = .running) :
    fetchDecode s =
      match decode s.cfg.opcodeMap (fetchBytes s) with
      | .ok (i, _)                => .run i
      | .error (.unknownOpcode b) => .unknown b
      | .error .truncated         => .rangeFault .pcRange := by
  cases s; cases h; rfl

/-- Everything a step can do (R90): nothing outside RUNNING; while RUNNING an unknown-instruction halt, a fault of
the operand fetch, or the decoded instruction. -/
theorem step_cases {s t : State} (h : step s = .next t) :
    (s.runState ≠ .running ∧ t = s) ∨
    (s.runState = .running ∧
      ((∃ b, decode s.cfg.opcodeMap (fetchBytes s) = .error (.unknownOpcode b) ∧ t = unknownHalt b s) ∨
       (decode s.cfg.opcodeMap (fetchBytes s) = .error .truncated ∧ t = takeFault .pcRange s) ∨
       (∃ i rest, decode s.cfg.opcodeMap (fetchBytes s) = .ok (i, rest) ∧ exec i s = .next t))) := by
  by_cases hr : s.runState = .running
  · refine .inr ⟨hr, ?_⟩
    rw [step, fetchDecode_running hr] at h
    match hd : decode s.cfg.opcodeMap (fetchBytes s) with
    | .error (.unknownOpcode b) =>
      simp only [hd, Host.Outcome.next.injEq] at h
      exact .inl ⟨b, rfl, h.symm⟩
    | .error .truncated =>
      simp only [hd, Host.Outcome.next.injEq] at h
      exact .inr (.inl ⟨rfl, h.symm⟩)
    | .ok (i, rest) =>
      simp only [hd] at h
      exact .inr (.inr ⟨i, rest, rfl, h⟩)
  · rw [step, fetchDecode_not_running hr, Host.Outcome.next.injEq] at h
    exact .inl ⟨hr, h.symm⟩

/-- The first byte a fetch reads is the opcode at pc, whatever the bounds mode (R91). -/
theorem fetchBytes_eq (s : State) : fetchBytes s = s.readByte s.pc :: bytesFrom s 2 1 := rfl

/-- Each byte a fetch reads is the one memory holds k bytes after pc, wherever that address is in reach (R91, R93). -/
theorem fetchBytes_getElem? {s : State} {k : Nat} (hk : k < maxLength) (h : reaches s k) :
    (fetchBytes s)[k]? = some (s.readByte (s.pc + BitVec.ofNat 8 k)) := by
  have reach {n : Nat} (hn : n ≤ k) : seq s.cfg.bounds s.pc n = .ok (s.pc + BitVec.ofNat 8 n) :=
    seq_ok fun hc => by have := h hc; omega
  match k, hk with
  | 0, _ => simp [fetchBytes]
  | 1, _ => simp [fetchBytes_eq, bytesFrom, reach (n := 1) (by decide)]
  | 2, _ => simp [fetchBytes_eq, bytesFrom, reach (n := 1) (by decide), reach (n := 2) (by decide)]

/-- The run loop (R103) through a step that has a next state. -/
theorem run_succ {s t : State} (k : Nat) (h : step s = .next t) :
    Sys2Proof.core.run (k + 1) s = Sys2Proof.core.run k t := by
  have h' : Sys2Proof.core.step s = .next t := h
  exact (Host.Core.run.eq_2 Sys2Proof.core s k).trans (by rw [h'])

end Sys2Proof.Machine
end

