-- ==== Sys2Proof/Laws/Exec.lean ====
section
/-! SUPPORT. What an instruction can do, once for all thirteen: it commits the state its rule gives, or it takes a
fault with CHECKED. Later proofs take the cases of `Commits` and unfold no meaning. -/

namespace Sys2Proof.Machine

/-- The states each instruction can commit, with the conditions under which it does. -/
inductive Commits (s : State) : Instr → State → Prop where
  /-- R110 -/
  | hlt : Commits s .hlt (s.setRunState .halted)
  /-- R111 -/
  | prn {a : Byte} : reaches s 2 → names s a →
      Commits s (.prn a) ((s.emit (.print (s.reg (regOf a)))).setPc (s.pc + 2))
  /-- R120 -/
  | ldi {a imm : Byte} : reaches s 3 → names s a →
      Commits s (.ldi a imm) ((s.setReg (regOf a) imm).setPc (s.pc + 3))
  /-- R121 -/
  | push {a : Byte} : reaches s 2 → names s a → (s.cfg.bounds = .checked → s.sp ≠ 0) →
      Commits s (.push a) (((s.setReg spIdx (s.sp - 1)).writeByte (s.sp - 1)
        ((s.setReg spIdx (s.sp - 1)).reg (regOf a))).setPc (s.pc + 2))
  /-- R122 -/
  | pop {a : Byte} : reaches s 2 → names s a →
      (s.cfg.bounds = .checked → (s.setReg (regOf a) (s.readByte s.sp)).sp ≠ 255) →
      Commits s (.pop a) (((s.setReg (regOf a) (s.readByte s.sp)).setReg spIdx
        ((s.setReg (regOf a) (s.readByte s.sp)).sp + 1)).setPc (s.pc + 2))
  /-- R130 -/
  | mul {a b : Byte} : reaches s 3 → names s a → names s b →
      Commits s (.mul a b)
        ((s.setReg (regOf a) (mulBytes (s.reg (regOf a)) (s.reg (regOf b)))).setPc (s.pc + 3))
  /-- R131 -/
  | add {a b : Byte} : reaches s 3 → names s a → names s b →
      Commits s (.add a b)
        ((s.setReg (regOf a) (addBytes (s.reg (regOf a)) (s.reg (regOf b)))).setPc (s.pc + 3))
  /-- R132 -/
  | cmp {a b : Byte} : reaches s 3 → names s a → names s b →
      Commits s (.cmp a b) (((s.setFl (compareFlags (s.reg (regOf a)) (s.reg (regOf b)))).emit
        (.flags (compareFlags (s.reg (regOf a)) (s.reg (regOf b))))).setPc (s.pc + 3))
  /-- R140 -/
  | call {a : Byte} : reaches s 2 → names s a → (s.cfg.bounds = .checked → s.sp ≠ 0) →
      Commits s (.call a) (((s.setReg spIdx (s.sp - 1)).writeByte (s.sp - 1) (s.pc + 2)).setPc
        ((s.setReg spIdx (s.sp - 1)).reg (regOf a)))
  /-- R141 -/
  | ret : reaches s 1 → names s (s.readByte (s.pc + 1)) →
      (s.cfg.bounds = .checked →
        (s.setReg (regOf (s.readByte (s.pc + 1))) (s.readByte s.sp)).sp ≠ 255) →
      Commits s .ret (((s.setReg (regOf (s.readByte (s.pc + 1))) (s.readByte s.sp)).setReg spIdx
        ((s.setReg (regOf (s.readByte (s.pc + 1))) (s.readByte s.sp)).sp + 1)).setPc
        (s.readByte s.sp))
  /-- R150, taken -/
  | jeqTaken {a : Byte} : reaches s 1 → names s a → s.flagE = true →
      Commits s (.jeq a) (s.setPc (s.reg (regOf a)))
  /-- R150, not taken -/
  | jeqNext {a : Byte} : reaches s 2 → names s a → s.flagE = false →
      Commits s (.jeq a) (s.setPc (s.pc + 2))
  /-- R151, taken -/
  | jneTaken {a : Byte} : reaches s 1 → names s a → s.flagE = false →
      Commits s (.jne a) (s.setPc (s.reg (regOf a)))
  /-- R151, not taken -/
  | jneNext {a : Byte} : reaches s 2 → names s a → s.flagE = true →
      Commits s (.jne a) (s.setPc (s.pc + 2))
  /-- R152 -/
  | jmp {a : Byte} : reaches s 1 → names s a →
      Commits s (.jmp a) (s.setPc (s.reg (regOf a)))

/-- A fault taken at `s`, which happens with CHECKED alone (60_exceptions.md R161). -/
def Faults (s t : State) : Prop := s.cfg.bounds = .checked ∧ ∃ c, t = takeFault c s

theorem Faults.mk {s t : State} {c : RangeFault} (hc : s.cfg.bounds = .checked)
    (h : commit s (.error c) = .next t) : Faults s t := by
  simp only [commit_error, Host.Outcome.next.injEq] at h
  exact ⟨hc, c, h.symm⟩

/-- The two ways out of the three jumps. -/
theorem branchIf_cases {taken : Bool} {a : Byte} {s t : State} (h : branchIf taken a s = .next t) :
    (names s a ∧ taken = true ∧ reaches s 1 ∧ t = s.setPc (s.reg (regOf a))) ∨
    (names s a ∧ taken = false ∧ reaches s 2 ∧ t = s.setPc (s.pc + 2)) ∨ Faults s t := by
  unfold branchIf at h
  obtain ⟨h1, e1⟩ | ⟨hc, -, e1⟩ := operandFetch_cases s 1
  · obtain ⟨h2, e2⟩ | ⟨hc, -, e2⟩ := ridx_cases s.cfg.bounds a
    · cases taken with
      | true =>
        simp only [e1, e2, bind_ok, if_true, commit_ok, Host.Outcome.next.injEq] at h
        exact .inl ⟨h2, rfl, h1, h.symm⟩
      | false =>
        obtain ⟨h3, e3⟩ | ⟨hc, -, e3⟩ := advance_cases s s 2
        · simp only [e1, e2, e3, bind_ok, Bool.false_eq_true, if_false, commit_ok,
            Host.Outcome.next.injEq] at h
          exact .inr (.inl ⟨h2, rfl, h3, h.symm⟩)
        · simp only [e1, e2, e3, bind_ok, Bool.false_eq_true, if_false] at h
          exact .inr (.inr (.mk hc h))
    · simp only [e1, e2, bind_ok, bind_error] at h
      exact .inr (.inr (.mk hc h))
  · simp only [e1, bind_error] at h
    exact .inr (.inr (.mk hc h))

/-- The two ways out of MUL and ADD. -/
theorem execAlu_cases {f : Byte → Byte → Byte} {a b : Byte} {s t : State}
    (h : execAlu f a b s = .next t) :
    (reaches s 3 ∧ names s a ∧ names s b ∧
      t = (s.setReg (regOf a) (f (s.reg (regOf a)) (s.reg (regOf b)))).setPc (s.pc + 3)) ∨
    Faults s t := by
  unfold execAlu at h
  obtain ⟨-, e1⟩ | ⟨hc, -, e1⟩ := operandFetch_cases s 2
  · obtain ⟨h2, e2⟩ | ⟨hc, -, e2⟩ := ridx_cases s.cfg.bounds a
    · obtain ⟨h3, e3⟩ | ⟨hc, -, e3⟩ := ridx_cases s.cfg.bounds b
      · simp only [e1, e2, e3, bind_ok] at h
        obtain ⟨h4, e4⟩ | ⟨hc, -, e4⟩ :=
          advance_cases s (s.setReg (regOf a) (f (s.reg (regOf a)) (s.reg (regOf b)))) 3
        · simp only [e4, commit_ok, Host.Outcome.next.injEq] at h
          exact .inl ⟨h4, h2, h3, h.symm⟩
        · rw [e4] at h
          exact .inr (.mk hc h)
      · simp only [e1, e2, e3, bind_ok, bind_error] at h
        exact .inr (.mk hc h)
    · simp only [e1, e2, bind_ok, bind_error] at h
      exact .inr (.mk hc h)
  · simp only [e1, bind_error] at h
    exact .inr (.mk hc h)

theorem execPrn_cases {a : Byte} {s t : State} (h : execPrn a s = .next t) :
    Commits s (.prn a) t ∨ Faults s t := by
  unfold execPrn at h
  obtain ⟨-, e1⟩ | ⟨hc, -, e1⟩ := operandFetch_cases s 1
  · obtain ⟨h2, e2⟩ | ⟨hc, -, e2⟩ := ridx_cases s.cfg.bounds a
    · simp only [e1, e2, bind_ok] at h
      obtain ⟨h3, e3⟩ | ⟨hc, -, e3⟩ := advance_cases s (s.emit (.print (s.reg (regOf a)))) 2
      · simp only [e3, commit_ok, Host.Outcome.next.injEq] at h
        exact .inl (h ▸ .prn h3 h2)
      · rw [e3] at h
        exact .inr (.mk hc h)
    · simp only [e1, e2, bind_ok, bind_error] at h
      exact .inr (.mk hc h)
  · simp only [e1, bind_error] at h
    exact .inr (.mk hc h)

theorem execLdi_cases {a imm : Byte} {s t : State} (h : execLdi a imm s = .next t) :
    Commits s (.ldi a imm) t ∨ Faults s t := by
  unfold execLdi at h
  obtain ⟨-, e1⟩ | ⟨hc, -, e1⟩ := operandFetch_cases s 2
  · obtain ⟨h2, e2⟩ | ⟨hc, -, e2⟩ := ridx_cases s.cfg.bounds a
    · simp only [e1, e2, bind_ok] at h
      obtain ⟨h3, e3⟩ | ⟨hc, -, e3⟩ := advance_cases s (s.setReg (regOf a) imm) 3
      · simp only [e3, commit_ok, Host.Outcome.next.injEq] at h
        exact .inl (h ▸ .ldi h3 h2)
      · rw [e3] at h
        exact .inr (.mk hc h)
    · simp only [e1, e2, bind_ok, bind_error] at h
      exact .inr (.mk hc h)
  · simp only [e1, bind_error] at h
    exact .inr (.mk hc h)

theorem execPush_cases {a : Byte} {s t : State} (h : execPush a s = .next t) :
    Commits s (.push a) t ∨ Faults s t := by
  unfold execPush at h
  obtain ⟨-, e1⟩ | ⟨hc, -, e1⟩ := operandFetch_cases s 1
  · obtain ⟨h2, e2⟩ | ⟨hc, -, e2⟩ := ridx_cases s.cfg.bounds a
    · obtain ⟨h3, e3⟩ | ⟨hc, -, e3⟩ := spdec_cases s.cfg.bounds s.sp
      · simp only [e1, e2, e3, bind_ok] at h
        obtain ⟨h4, e4⟩ | ⟨hc, -, e4⟩ := advance_cases s ((s.setReg spIdx (s.sp - 1)).writeByte
          (s.sp - 1) ((s.setReg spIdx (s.sp - 1)).reg (regOf a))) 2
        · simp only [e4, commit_ok, Host.Outcome.next.injEq] at h
          exact .inl (h ▸ .push h4 h2 h3)
        · rw [e4] at h
          exact .inr (.mk hc h)
      · simp only [e1, e2, e3, bind_ok, bind_error] at h
        exact .inr (.mk hc h)
    · simp only [e1, e2, bind_ok, bind_error] at h
      exact .inr (.mk hc h)
  · simp only [e1, bind_error] at h
    exact .inr (.mk hc h)

theorem execPop_cases {a : Byte} {s t : State} (h : execPop a s = .next t) :
    Commits s (.pop a) t ∨ Faults s t := by
  unfold execPop at h
  obtain ⟨-, e1⟩ | ⟨hc, -, e1⟩ := operandFetch_cases s 1
  · obtain ⟨h2, e2⟩ | ⟨hc, -, e2⟩ := ridx_cases s.cfg.bounds a
    · simp only [e1, e2, bind_ok] at h
      obtain ⟨h3, e3⟩ | ⟨hc, -, e3⟩ := popInto_cases s (regOf a) (s.readByte s.sp)
      · simp only [e3, bind_ok] at h
        obtain ⟨h4, e4⟩ | ⟨hc, -, e4⟩ := advance_cases s ((s.setReg (regOf a) (s.readByte s.sp)).setReg
          spIdx ((s.setReg (regOf a) (s.readByte s.sp)).sp + 1)) 2
        · simp only [e4, commit_ok, Host.Outcome.next.injEq] at h
          exact .inl (h ▸ .pop h4 h2 h3)
        · rw [e4] at h
          exact .inr (.mk hc h)
      · simp only [e3, bind_error] at h
        exact .inr (.mk hc h)
    · simp only [e1, e2, bind_ok, bind_error] at h
      exact .inr (.mk hc h)
  · simp only [e1, bind_error] at h
    exact .inr (.mk hc h)

theorem execCmp_cases {a b : Byte} {s t : State} (h : execCmp a b s = .next t) :
    Commits s (.cmp a b) t ∨ Faults s t := by
  unfold execCmp at h
  obtain ⟨-, e1⟩ | ⟨hc, -, e1⟩ := operandFetch_cases s 2
  · obtain ⟨h2, e2⟩ | ⟨hc, -, e2⟩ := ridx_cases s.cfg.bounds a
    · obtain ⟨h3, e3⟩ | ⟨hc, -, e3⟩ := ridx_cases s.cfg.bounds b
      · simp only [e1, e2, e3, bind_ok] at h
        obtain ⟨h4, e4⟩ | ⟨hc, -, e4⟩ :=
          advance_cases s ((s.setFl (compareFlags (s.reg (regOf a)) (s.reg (regOf b)))).emit
            (.flags (compareFlags (s.reg (regOf a)) (s.reg (regOf b))))) 3
        · simp only [e4, commit_ok, Host.Outcome.next.injEq] at h
          exact .inl (h ▸ .cmp h4 h2 h3)
        · rw [e4] at h
          exact .inr (.mk hc h)
      · simp only [e1, e2, e3, bind_ok, bind_error] at h
        exact .inr (.mk hc h)
    · simp only [e1, e2, bind_ok, bind_error] at h
      exact .inr (.mk hc h)
  · simp only [e1, bind_error] at h
    exact .inr (.mk hc h)

theorem execCall_cases {a : Byte} {s t : State} (h : execCall a s = .next t) :
    Commits s (.call a) t ∨ Faults s t := by
  unfold execCall at h
  obtain ⟨-, e1⟩ | ⟨hc, -, e1⟩ := operandFetch_cases s 1
  · obtain ⟨h2, e2⟩ | ⟨hc, -, e2⟩ := ridx_cases s.cfg.bounds a
    · obtain ⟨h3, e3⟩ | ⟨hc, -, e3⟩ := spdec_cases s.cfg.bounds s.sp
      · obtain ⟨h4, e4⟩ | ⟨hc, -, e4⟩ := seq_cases s.cfg.bounds s.pc 2
        · simp only [e1, e2, e3, e4, bind_ok, commit_ok, Host.Outcome.next.injEq] at h
          exact .inl (h ▸ .call h4 h2 h3)
        · simp only [e1, e2, e3, e4, bind_ok, bind_error] at h
          exact .inr (.mk hc h)
      · simp only [e1, e2, e3, bind_ok, bind_error] at h
        exact .inr (.mk hc h)
    · simp only [e1, e2, bind_ok, bind_error] at h
      exact .inr (.mk hc h)
  · simp only [e1, bind_error] at h
    exact .inr (.mk hc h)

theorem execRet_cases {s t : State} (h : execRet s = .next t) :
    Commits s .ret t ∨ Faults s t := by
  unfold execRet at h
  obtain ⟨h1, e1⟩ | ⟨hc, -, e1⟩ := seq_cases s.cfg.bounds s.pc 1
  · simp only [e1, bind_ok] at h
    obtain ⟨h2, e2⟩ | ⟨hc, -, e2⟩ := ridx_cases s.cfg.bounds (s.readByte (s.pc + BitVec.ofNat 8 1))
    · simp only [e2, bind_ok] at h
      obtain ⟨h3, e3⟩ | ⟨hc, -, e3⟩ :=
        popInto_cases s (regOf (s.readByte (s.pc + BitVec.ofNat 8 1))) (s.readByte s.sp)
      · simp only [e3, bind_ok, commit_ok, Host.Outcome.next.injEq] at h
        exact .inl (h ▸ .ret h1 h2 h3)
      · simp only [e3, bind_error] at h
        exact .inr (.mk hc h)
    · simp only [e2, bind_error] at h
      exact .inr (.mk hc h)
  · simp only [e1, bind_error] at h
    exact .inr (.mk hc h)

/-- Everything an instruction can do: it commits, or it faults with CHECKED. -/
theorem exec_cases {i : Instr} {s t : State} (h : exec i s = .next t) :
    Commits s i t ∨ Faults s t := by
  cases i with
  | hlt =>
    simp only [exec, execHlt, commit_ok, Host.Outcome.next.injEq] at h
    exact .inl (h ▸ .hlt)
  | ldi a imm => exact execLdi_cases h
  | prn a => exact execPrn_cases h
  | mul a b => exact (execAlu_cases h).imp_left fun ⟨h1, h2, h3, e⟩ => e ▸ .mul h1 h2 h3
  | add a b => exact (execAlu_cases h).imp_left fun ⟨h1, h2, h3, e⟩ => e ▸ .add h1 h2 h3
  | push a => exact execPush_cases h
  | pop a => exact execPop_cases h
  | call a => exact execCall_cases h
  | ret => exact execRet_cases h
  | cmp a b => exact execCmp_cases h
  | jeq a =>
    obtain ⟨h1, h2, h3, rfl⟩ | ⟨h1, h2, h3, rfl⟩ | hf := branchIf_cases h
    · exact .inl (.jeqTaken h3 h1 h2)
    · exact .inl (.jeqNext h3 h1 h2)
    · exact .inr hf
  | jne a =>
    obtain ⟨h1, h2, h3, rfl⟩ | ⟨h1, h2, h3, rfl⟩ | hf := branchIf_cases h
    · exact .inl (.jneTaken h3 h1 (by simpa using h2))
    · exact .inl (.jneNext h3 h1 (by simpa using h2))
    · exact .inr hf
  | jmp a =>
    obtain ⟨h1, -, h3, rfl⟩ | ⟨-, h2, -⟩ | hf := branchIf_cases h
    · exact .inl (.jmp h3 h1)
    · exact absurd h2 (by decide)
    · exact .inr hf

end Sys2Proof.Machine
end

