-- ==== Sys2Proof/Laws/PerInstr.lean ====
section
/-! SUPPORT. Statements made of every instruction as syntax, one lemma per constructor. -/

namespace Sys2Proof.Laws.EncodedLength

/-- The encoding of an instruction has the length of its row, under every map (30_encoding.md R70, R79). -/
def Statement (i : Instr) : Prop :=
  ∀ map : OpcodeMap, (encode map i).length = i.mnemonic.length

theorem hlt : Statement .hlt := fun _ => rfl
theorem ldi (a imm : Byte) : Statement (.ldi a imm) := fun _ => rfl
theorem prn (a : Byte) : Statement (.prn a) := fun _ => rfl
theorem mul (a b : Byte) : Statement (.mul a b) := fun _ => rfl
theorem add (a b : Byte) : Statement (.add a b) := fun _ => rfl
theorem push (a : Byte) : Statement (.push a) := fun _ => rfl
theorem pop (a : Byte) : Statement (.pop a) := fun _ => rfl
theorem call (a : Byte) : Statement (.call a) := fun _ => rfl
theorem ret : Statement .ret := fun _ => rfl
theorem cmp (a b : Byte) : Statement (.cmp a b) := fun _ => rfl
theorem jeq (a : Byte) : Statement (.jeq a) := fun _ => rfl
theorem jne (a : Byte) : Statement (.jne a) := fun _ => rfl
theorem jmp (a : Byte) : Statement (.jmp a) := fun _ => rfl

end Sys2Proof.Laws.EncodedLength

namespace Sys2Proof.Laws.OperandsDecode

/-- The operand bytes of an instruction, followed by any others, are read back as that instruction (R71). -/
def Statement (i : Instr) : Prop :=
  ∀ rest : List Byte, decodeOperands i.mnemonic (i.operands ++ rest) = .ok (i, rest)

theorem hlt : Statement .hlt := fun _ => rfl
theorem ldi (a imm : Byte) : Statement (.ldi a imm) := fun _ => rfl
theorem prn (a : Byte) : Statement (.prn a) := fun _ => rfl
theorem mul (a b : Byte) : Statement (.mul a b) := fun _ => rfl
theorem add (a b : Byte) : Statement (.add a b) := fun _ => rfl
theorem push (a : Byte) : Statement (.push a) := fun _ => rfl
theorem pop (a : Byte) : Statement (.pop a) := fun _ => rfl
theorem call (a : Byte) : Statement (.call a) := fun _ => rfl
theorem ret : Statement .ret := fun _ => rfl
theorem cmp (a b : Byte) : Statement (.cmp a b) := fun _ => rfl
theorem jeq (a : Byte) : Statement (.jeq a) := fun _ => rfl
theorem jne (a : Byte) : Statement (.jne a) := fun _ => rfl
theorem jmp (a : Byte) : Statement (.jmp a) := fun _ => rfl

end Sys2Proof.Laws.OperandsDecode
end

