-- ==== Sys2Proof/Tests/Slice0.lean ====
section
/-! SUPPORT. The model's own tests: the checks of WellFormed, decoding, the spec's one-step vectors
(95_test_vectors.md section 2), and a witness for the hypotheses of every obligation that has some. -/

namespace Sys2Proof.Tests

open Sys2Proof.Machine Sys2Proof.Stated

/-- A running machine of the default instantiation in a bounds mode, with bytes from pc on; everything else is as
after reset, the start state of 95_test_vectors.md. -/
def machine (mode : BoundsMode) (pc : Byte) (bytes : List Byte) : State :=
  placeAtPc { State.resetWith { Config.default with bounds := mode } with pc := pc, runState := .running } 0 bytes

def nextState : Host.Outcome State Fault Refusal → Option State
  | .next t    => some t
  | .fault _   => none
  | .refused _ => none

/-- One field or several of the state one step later. -/
def after {α : Type} (s : State) (f : State → α) : Option α := (nextState (step s)).map f

/-- The status registers of a stop. -/
def stop (s : State) : RunState × FaultCause × Byte := (s.runState, s.faultCause, s.faultPc)

/-! ### WellFormed: each check refuses an ill-formed term -/

theorem test_wf_accepts_index_7 : (Instr.ldi 0x07 0xFF).wf = true := by decide
theorem test_wf_refuses_index_8 : (Instr.ldi 0x08 0x05).wf = false := by decide
theorem test_wf_refuses_second_index : (Instr.add 0x00 0x09).wf = false := by decide
theorem test_injective_refuses_shared_byte :
    { OpcodeMap.default with add := 0xA2 }.injective = false := by decide
theorem test_counts_refuses_wrong_count :
    { OpcodeMap.default with hlt := 0x41 }.countsInTopBits = false := by decide
theorem test_ff_refuses_mapped_ff : { OpcodeMap.default with hlt := 0xFF }.ffUnmapped = false := by decide
theorem test_map_wf : OpcodeMap.default.wf = true := by decide
theorem test_memory_wf_refuses_order : Memory.wf [(2, 1), (1, 1)] = false := by decide
theorem test_memory_wf_refuses_unlisted_value : Memory.wf [(2, 0)] = false := by decide
theorem test_memory_wf_refuses_high_address : Memory.wf [(256, 1)] = false := by decide

/-! ### Decode: words written out from R71 and R74, one for each constructor -/

theorem test_decode_hlt : decode OpcodeMap.default [0b00000001] = .ok (.hlt, []) := rfl
theorem test_decode_ldi :
    decode OpcodeMap.default [0b10000010, 0b00000111, 0b11111111] = .ok (.ldi 7 255, []) := rfl
theorem test_decode_prn : decode OpcodeMap.default [0b01000111, 0b00000001] = .ok (.prn 1, []) := rfl
theorem test_decode_mul :
    decode OpcodeMap.default [0b10100010, 0b00000010, 0b00000011] = .ok (.mul 2 3, []) := rfl
theorem test_decode_add :
    decode OpcodeMap.default [0b10100000, 0b00000010, 0b00000011] = .ok (.add 2 3, []) := rfl
theorem test_decode_push : decode OpcodeMap.default [0b01000101, 0b00001000] = .ok (.push 8, []) := rfl
theorem test_decode_pop : decode OpcodeMap.default [0b01000110, 0b00000110] = .ok (.pop 6, []) := rfl
theorem test_decode_call : decode OpcodeMap.default [0b01010000, 0b00000001] = .ok (.call 1, []) := rfl
theorem test_decode_ret : decode OpcodeMap.default [0b00010001, 0b00000010] = .ok (.ret, [2]) := rfl
theorem test_decode_cmp :
    decode OpcodeMap.default [0b10100111, 0b00000000, 0b00000010] = .ok (.cmp 0 2, []) := rfl
theorem test_decode_jeq : decode OpcodeMap.default [0b01010101, 0b00000011] = .ok (.jeq 3, []) := rfl
theorem test_decode_jne : decode OpcodeMap.default [0b01010110, 0b00000011] = .ok (.jne 3, []) := rfl
theorem test_decode_jmp : decode OpcodeMap.default [0b01010100, 0b00000010] = .ok (.jmp 2, []) := rfl
theorem test_decode_unknown :
    decode OpcodeMap.default [0b11000000, 0b00000000] = .error (.unknownOpcode 0xC0) := rfl
theorem test_decode_truncated : decode OpcodeMap.default [0x82, 0x00] = .error .truncated := rfl
theorem test_decode_table_word : decodeTableWord 24 0x080082 = some (.ldi 0 8) := by decide
theorem test_decode_table_word_short : decodeTableWord 8 0xFFFF01 = some .hlt := by decide
/-- R80's example line `MUL R0,R1`. -/
theorem test_asm : (Instr.mul 0 1).asm = some "MUL R0,R1" := by decide

/-! ### One-step vectors of 95_test_vectors.md, section 2 -/

theorem test_S2_hlt_at_255 : after (machine .checked 0xFF [0x01]) (fun t => (t.runState, t.pc)) =
    some (.halted, 0xFF) := by decide
theorem test_S3_prn : after ((machine .checked 0x09 [0x47, 0x00]).setReg 0 0x48) (fun t => (t.out, t.pc)) =
    some ([.print 72], 0x0B) := by decide
theorem test_S5_prn_faults : after ((machine .checked 0xFE [0x47, 0x00]).setReg 0 0x48)
    (fun t => (stop t, t.out, t.pc)) = some ((.faulted, .pcRange, 0xFE), [], 0xFE) := by decide
theorem test_S9_unknown : after (machine .wrap 0x00 [0xC0]) (fun t => (stop t, t.out, t.pc)) =
    some ((.haltedUnknown, .none, 0x00), [.unknown 0xC0], 0x00) := by decide
theorem test_M5_ldi_next_pc_faults : after (machine .checked 0xFD [0x82, 0x00, 0x09])
    (fun t => (stop t, t.reg 0)) = some ((.faulted, .pcRange, 0xFD), 0x00) := by decide
theorem test_M8_ldi_wraps : after (machine .wrap 0xFE [0x82, 0x00, 0x09]) (fun t => (t.reg 0, t.pc)) =
    some (0x09, 0x01) := by decide
theorem test_M10_push_sp : after (machine .checked 0x03 [0x45, 0x07])
    (fun t => (t.sp, t.readByte 0xF3, t.pc)) = some (0xF3, 0xF3, 0x05) := by decide
theorem test_M12_push_wraps : after (((machine .wrap 0x03 [0x45, 0x00]).setReg 0 0x05).setReg 7 0x00)
    (fun t => (t.sp, t.readByte 0xFF, t.pc)) = some (0xFF, 0x05, 0x05) := by decide
theorem test_M14_pop_sp :
    after (((machine .checked 0x05 [0x46, 0x07]).setReg 7 0xF3).writeByte 0xF3 0x10)
      (fun t => (t.sp, t.pc)) = some (0x11, 0x07) := by decide
theorem test_M17_pop_faults :
    after (((machine .checked 0x05 [0x46, 0x01]).setReg 7 0xFF).writeByte 0xFF 0x09)
      (fun t => (stop t, t.reg 1)) = some ((.faulted, .spRange, 0x05), 0x00) := by decide
theorem test_A3_mul : after (((machine .checked 0x06 [0xA2, 0x00, 0x01]).setReg 0 0xFF).setReg 1 0xFF)
    (fun t => (t.reg 0, t.reg 1, t.pc)) = some (0x01, 0xFF, 0x09) := by decide
theorem test_A7_mul_masks : after (((machine .wrap 0x06 [0xA2, 0x00, 0x09]).setReg 0 0x03).setReg 1 0x04)
    (fun t => t.reg 0) = some 0x0C := by decide
theorem test_A10_add : after (((machine .checked 0x06 [0xA0, 0x00, 0x01]).setReg 0 0xC8).setReg 1 0x64)
    (fun t => (t.reg 0, t.fl)) = some (0x2C, 0x00) := by decide
theorem test_A12_add_sp : after ((machine .checked 0x06 [0xA0, 0x07, 0x01]).setReg 1 0x02)
    (fun t => t.sp) = some 0xF6 := by decide
theorem test_A16_cmp_unsigned :
    after (((machine .checked 0x0F [0xA7, 0x00, 0x01]).setReg 0 0x80).setReg 1 0x01)
      (fun t => (t.fl, t.out)) = some (0x02, [.flags 2]) := by decide
theorem test_A17_cmp_clears :
    after (((machine .checked 0x0F [0xA7, 0x05, 0x05]).setReg 5 0x42).setFl 0xFF)
      (fun t => (t.fl, t.pc)) = some (0x01, 0x12) := by decide
theorem test_C2_call_sp : after (machine .checked 0x20 [0x50, 0x07])
    (fun t => (t.sp, t.readByte 0xF3, t.pc)) = some (0xF3, 0x22, 0xF3) := by decide
theorem test_C5_call_wraps : after ((machine .wrap 0xFE [0x50, 0x01]).setReg 1 0x0B)
    (fun t => (t.sp, t.readByte 0xF3, t.pc)) = some (0xF3, 0x00, 0x0B) := by decide
theorem test_C7_ret_sp :
    after (((machine .checked 0x0D [0x11, 0x07]).setReg 7 0xF3).writeByte 0xF3 0x22)
      (fun t => (t.sp, t.pc)) = some (0x23, 0x22) := by decide
theorem test_C11_ret_wraps :
    after (((machine .wrap 0xFF [0x11, 0x03]).setReg 7 0xF3).writeByte 0xF3 0x08)
      (fun t => (t.reg 3, t.sp, t.pc)) = some (0x08, 0xF4, 0x08) := by decide
theorem test_B3_jeq_reads_bit_0 :
    after (((machine .checked 0x12 [0x55, 0x03]).setReg 3 0x0C).setFl 0x06) (fun t => t.pc) =
      some 0x14 := by decide
theorem test_B6_jeq_taken_at_254 :
    after (((machine .checked 0xFE [0x55, 0x03]).setReg 3 0x0C).setFl 0x01) (fun t => t.pc) =
      some 0x0C := by decide
theorem test_B8_jne_not_taken :
    after (((machine .checked 0x12 [0x56, 0x03]).setReg 3 0x0C).setFl 0x01) (fun t => t.pc) =
      some 0x14 := by decide
theorem test_B9_jne_reads_bit_0 :
    after (((machine .checked 0x12 [0x56, 0x03]).setReg 3 0x0C).setFl 0xFE) (fun t => t.pc) =
      some 0x0C := by decide
theorem test_B11_jmp_at_254 : after ((machine .checked 0xFE [0x54, 0x02]).setReg 2 0x20)
    (fun t => t.pc) = some 0x20 := by decide
theorem test_B12_jmp_at_255 : after ((machine .checked 0xFF [0x54, 0x02]).setReg 2 0x20) stop =
    some (.faulted, .pcRange, 0xFF) := by decide
theorem test_reset_word_runs : after (State.reset.withFetchWord 24 0x080082) (fun t => (t.reg 0, t.pc)) =
    some (0x08, 0x03) := by decide

/-! ### Witnesses: concrete states and operands that meet an obligation's hypotheses, clause by clause -/

/-- Clauses of the rules of one-operand instructions that need a next pc: completion at the last pc with CHECKED
and past the end with WRAP, then the three range faults. -/
theorem witness_oneOperandClauses :
    (reaches (machine .checked 0xFD []) 2 ∧ names (machine .checked 0xFD []) 7) ∧
    (reaches (machine .wrap 0xFF []) 2 ∧ names (machine .wrap 0xFF []) 0xFF) ∧
    ((machine .checked 0xFF []).cfg.bounds = .checked ∧ (machine .checked 0xFF []).pc.toNat = 255) ∧
    ((machine .checked 0xFE []).pc.toNat ≤ 254 ∧ 7 < (8 : Byte).toNat) ∧
    ((machine .checked 0xFE []).pc.toNat = 254 ∧ (7 : Byte).toNat ≤ 7) := by decide

/-- PrintRule. -/
theorem witness_PrintRule : reaches (machine .checked 0xFD []) 2 ∧ names (machine .checked 0xFD []) 7 ∧
    (machine .checked 0xFE []).cfg.bounds = .checked := by decide

/-- Clauses of the three-byte instructions: completion at 252 and past the end with WRAP, then the faults at 254,
253 with a bad index in either place, and 253. -/
theorem witness_threeByteClauses :
    (reaches (machine .checked 0xFC []) 3 ∧ names (machine .checked 0xFC []) 7) ∧
    (reaches (machine .wrap 0xFF []) 3 ∧ names (machine .wrap 0xFF []) 8) ∧
    254 ≤ (machine .checked 0xFE []).pc.toNat ∧
    ((machine .checked 0xFD []).pc.toNat ≤ 253 ∧ (7 < (8 : Byte).toNat ∨ 7 < (0 : Byte).toNat)) ∧
    ((machine .checked 0xFD []).pc.toNat ≤ 253 ∧ (7 < (0 : Byte).toNat ∨ 7 < (8 : Byte).toNat)) ∧
    ((machine .checked 0xFD []).pc.toNat = 253 ∧ (7 : Byte).toNat ≤ 7) := by decide

/-- LoadImmediateRule, MultiplyRule, AddRule and CompareRule: `witness_threeByteClauses` meets every clause. -/
theorem witness_threeByteRules_checked : (machine .checked 0xFD []).cfg.bounds = .checked := rfl

/-- PushRule and CallRule: SP 1, the last that can be decremented with CHECKED, SP 0 with WRAP, and SP 0. -/
theorem witness_PushRule_CallRule :
    (reaches ((machine .checked 0xFD []).setReg 7 1) 2 ∧ names ((machine .checked 0xFD []).setReg 7 1) 7 ∧
      ((machine .checked 0xFD []).setReg 7 1).sp ≠ 0) ∧
    (((machine .wrap 0xFD []).setReg 7 0).cfg.bounds = .checked →
      ((machine .wrap 0xFD []).setReg 7 0).sp ≠ 0) ∧
    (((machine .checked 0xFE []).setReg 7 0).pc.toNat ≤ 254 ∧ ((machine .checked 0xFE []).setReg 7 0).sp = 0) ∧
    (((machine .checked 0xFE []).setReg 7 1).pc.toNat = 254 ∧
      ((machine .checked 0xFE []).setReg 7 1).sp ≠ 0) := by decide

/-- PopRule: SP 254 for another register, a popped 254 and 255 for R7, SP 255 with CHECKED and with WRAP. -/
theorem witness_PopRule :
    spBeforeInc ((machine .checked 0xFD []).setReg 7 0xFE) (regOf 1) 0x09 ≠ 255 ∧
    spBeforeInc (machine .checked 0xFD []) (regOf 7) 0xFE ≠ 255 ∧
    spBeforeInc (machine .checked 0xFE []) (regOf 7) 0xFF = 255 ∧
    spBeforeInc ((machine .checked 0xFE []).setReg 7 0xFF) (regOf 1) 0x09 = 255 ∧
    (((machine .wrap 0xFE []).setReg 7 0xFF).cfg.bounds = .checked →
      spBeforeInc ((machine .wrap 0xFE []).setReg 7 0xFF) (regOf 1) 0x09 ≠ 255) := by decide

/-- ReturnRule: RET at 254 completes, a quirk byte 8 and SP 255 fault, RET at 255 faults or wraps. -/
theorem witness_ReturnRule :
    (reaches (machine .checked 0xFE [0x11, 0x07]) 1 ∧
      names (machine .checked 0xFE [0x11, 0x07]) ((machine .checked 0xFE [0x11, 0x07]).readByte 0xFF) ∧
      spBeforeInc (machine .checked 0xFE [0x11, 0x07]) (regOf 7) 0x22 ≠ 255) ∧
    (reaches (machine .wrap 0xFF [0x11, 0x82]) 1 ∧ names (machine .wrap 0xFF [0x11, 0x82]) 0x82) ∧
    (machine .checked 0xFF [0x11]).pc.toNat = 255 ∧
    7 < ((machine .checked 0xFE [0x11, 0x08]).readByte 0xFF).toNat ∧
    spBeforeInc ((machine .checked 0xFE [0x11, 0x01]).setReg 7 0xFF) (regOf 1) 0x00 = 255 := by decide

/-- JumpIfEqualRule and JumpIfNotEqualRule: taken at 254, not taken at 253, and the faults of `witness_oneOperandClauses`
with the flag that leaves the branch untaken. JumpRule: the same pcs. -/
theorem witness_JumpRules :
    (reaches ((machine .checked 0xFE []).setFl 0x01) 1 ∧
      ((machine .checked 0xFE []).setFl 0x01).fl.getLsbD 0 = true) ∧
    (reaches ((machine .checked 0xFD []).setFl 0x06) 2 ∧
      ((machine .checked 0xFD []).setFl 0x06).fl.getLsbD 0 = false) ∧
    (reaches ((machine .checked 0xFE []).setFl 0x06) 1 ∧
      ((machine .checked 0xFE []).setFl 0x06).fl.getLsbD 0 = false) ∧
    (reaches ((machine .checked 0xFD []).setFl 0x01) 2 ∧
      ((machine .checked 0xFD []).setFl 0x01).fl.getLsbD 0 = true) ∧
    names (machine .checked 0xFE []) 7 ∧ reaches (machine .wrap 0xFF []) 1 := by decide

/-- RegisterWritersFrame: each of LDI, MUL and ADD runs and goes on. -/
theorem witness_RegisterWritersFrame :
    (machine .checked 0 []).runState = .running ∧
    (∃ t, exec (.ldi 7 255) (machine .checked 0xFC []) = .next t ∧ t.runState = .running) ∧
    (∃ t, exec (.mul 7 0) (machine .checked 0xFC []) = .next t ∧ t.runState = .running) ∧
    (∃ t, exec (.add 0 7) (machine .wrap 0xFF []) = .next t ∧ t.runState = .running) :=
  ⟨rfl, ⟨_, rfl, rfl⟩, ⟨_, rfl, rfl⟩, ⟨_, rfl, rfl⟩⟩

/-- NonStoringFrame: each of its six instructions runs without a fault. -/
theorem witness_NonStoringFrame :
    (machine .checked 0 []).runState = .running ∧
    (∃ t, exec .hlt (machine .checked 0xFF []) = .next t ∧ t.runState ≠ .faulted) ∧
    (∃ t, exec (.prn 7) (machine .checked 0xFD []) = .next t ∧ t.runState ≠ .faulted) ∧
    (∃ t, exec (.cmp 7 7) (machine .checked 0xFC []) = .next t ∧ t.runState ≠ .faulted) ∧
    (∃ t, exec (.jeq 7) (machine .checked 0xFD []) = .next t ∧ t.runState ≠ .faulted) ∧
    (∃ t, exec (.jne 7) (machine .checked 0xFE []) = .next t ∧ t.runState ≠ .faulted) ∧
    (∃ t, exec (.jmp 7) (machine .checked 0xFE []) = .next t ∧ t.runState ≠ .faulted) :=
  ⟨rfl, ⟨_, rfl, by decide⟩, ⟨_, rfl, by decide⟩, ⟨_, rfl, by decide⟩, ⟨_, rfl, by decide⟩,
    ⟨_, rfl, by decide⟩, ⟨_, rfl, by decide⟩⟩

/-- StackWritersFrame: PUSH and CALL run, and `spdec` gives the address. -/
theorem witness_StackWritersFrame :
    (machine .checked 0xFD []).runState = .running ∧
    (∃ t, exec (.push 7) (machine .checked 0xFD []) = .next t ∧ t.runState = .running) ∧
    (∃ t, exec (.call 1) (machine .checked 0xFD []) = .next t ∧ t.runState = .running) ∧
    spdec .checked (machine .checked 0xFD []).sp = .ok 0xF3 :=
  ⟨rfl, ⟨_, rfl, rfl⟩, ⟨_, rfl, rfl⟩, rfl⟩

/-- StackReadersFrame: POP and RET run. -/
theorem witness_StackReadersFrame :
    (machine .checked 0xFD []).runState = .running ∧
    (∃ t, exec (.pop 7) (machine .checked 0xFD []) = .next t ∧ t.runState = .running) ∧
    (∃ t, exec .ret (machine .checked 0xFE [0x11, 0x02]) = .next t ∧ t.runState = .running) :=
  ⟨rfl, ⟨_, rfl, rfl⟩, ⟨_, rfl, rfl⟩⟩

/-- StepRunsDecoded, at the last pc a one-byte instruction may stand at. -/
theorem witness_StepRunsDecoded : (machine .checked 0xFF [0x01]).runState = .running ∧
    decode (machine .checked 0xFF [0x01]).cfg.opcodeMap (fetchBytes (machine .checked 0xFF [0x01])) =
      .ok (.hlt, []) := ⟨rfl, rfl⟩

/-- StepRunsEncodedBytes: LDI whose immediate is the last byte of memory, and one that wraps. -/
theorem witness_StepRunsEncodedBytes :
    (machine .checked 0xFD [0x82, 0x00, 0x09]).cfg.opcodeMap.wf = true ∧
    reaches (machine .checked 0xFD [0x82, 0x00, 0x09]) (Instr.ldi 0 9).operands.length ∧
    (∀ k : Fin 3, (machine .checked 0xFD [0x82, 0x00, 0x09]).readByte (0xFD + BitVec.ofNat 8 k) =
      (encode OpcodeMap.default (.ldi 0 9))[k]) ∧
    reaches (machine .wrap 0xFE [0x82, 0x00, 0x09]) (Instr.ldi 0 9).operands.length ∧
    (∀ k : Fin 3, (machine .wrap 0xFE [0x82, 0x00, 0x09]).readByte (0xFE + BitVec.ofNat 8 k) =
      (encode OpcodeMap.default (.ldi 0 9))[k]) := by decide

/-- UnknownInstructionHalts and the last clause of UnknownBytes. -/
theorem witness_UnknownInstructionHalts :
    (machine .checked 0xFF [0xFF]).runState = .running ∧
    OpcodeMap.default.lookup ((machine .checked 0xFF [0xFF]).readByte 0xFF) = none ∧
    (∀ k ∈ Mnemonic.all, OpcodeMap.default.byte k ≠ (machine .checked 0xFF [0xFF]).readByte 0xFF) := by decide

/-- OperandPastEndFaults: one operand at 256, two operands of which the second is at 256. -/
theorem witness_OperandPastEndFaults :
    (machine .checked 0xFF [0x47]).runState = .running ∧
    OpcodeMap.default.lookup ((machine .checked 0xFF [0x47]).readByte 0xFF) = some .prn ∧
    255 < (machine .checked 0xFF [0x47]).pc.toNat + Mnemonic.prn.operandCount ∧
    OpcodeMap.default.lookup ((machine .checked 0xFE [0xA7]).readByte 0xFE) = some .cmp ∧
    255 < (machine .checked 0xFE [0xA7]).pc.toNat + Mnemonic.cmp.operandCount := by decide

/-- StepOutsideRunning and TransactionsOutsideTheirWindow, in the states that are not RUNNING or not IDLE. -/
theorem witness_StepOutsideRunning : State.reset.runState ≠ .running ∧
    (State.reset.setRunState .halted).runState ≠ .running ∧
    (State.reset.setRunState .halted).runState ≠ .idle ∧
    (State.reset.setRunState .running).runState ≠ .idle := by decide

/-- FaultIsPrecise. -/
theorem witness_FaultIsPrecise : (machine .checked 0xFE [0x47, 0x00]).runState = .running ∧
    ∃ t, step (machine .checked 0xFE [0x47, 0x00]) = .next t ∧ t.runState = .faulted := ⟨rfl, _, rfl, rfl⟩

/-- WrapNeverFaults, where CHECKED would fault. -/
theorem witness_WrapNeverFaults : (machine .wrap 0xFE [0x47, 0x08]).runState = .running ∧
    (machine .wrap 0xFE [0x47, 0x08]).cfg.bounds = .wrap ∧
    ∃ t, step (machine .wrap 0xFE [0x47, 0x08]) = .next t := ⟨rfl, rfl, _, rfl⟩

/-- OnlyHaltHalts, for HLT and for another instruction. -/
theorem witness_OnlyHaltHalts : (machine .checked 0 []).runState = .running ∧
    (∃ t, exec .hlt (machine .checked 0 []) = .next t) ∧
    (∃ t, exec (.jmp 0) (machine .checked 0 []) = .next t) := ⟨rfl, ⟨_, rfl⟩, ⟨_, rfl⟩⟩

/-- OnlyCompareWritesFlags. -/
theorem witness_OnlyCompareWritesFlags :
    ∃ t, step (machine .checked 0x0F [0xA7, 0x00, 0x02]) = .next t ∧
      t.fl ≠ (machine .checked 0x0F [0xA7, 0x00, 0x02]).fl := ⟨_, rfl, by decide⟩

/-- OnlyBitZeroOfFlagsIsRead, with every other bit different. -/
theorem witness_OnlyBitZeroOfFlagsIsRead : (0xFE : Byte).getLsbD 0 = State.reset.fl.getLsbD 0 := by decide

/-- OnlyPushAndCallWriteMemory. -/
theorem witness_OnlyPushAndCallWriteMemory :
    ∃ t, step (machine .checked 0x03 [0x45, 0x07]) = .next t ∧
      t.readByte 0xF3 ≠ (machine .checked 0x03 [0x45, 0x07]).readByte 0xF3 := ⟨_, rfl, by decide⟩

/-- OutputEvents, for an event of each kind and for none. -/
theorem witness_OutputEvents :
    (∃ t, step (machine .checked 0 [0x47, 0x07]) = .next t ∧ t.out = [.print 0xF4]) ∧
    (∃ t, step (machine .checked 0 [0xA7, 0x00, 0x07]) = .next t ∧ t.out = [.flags 4]) ∧
    (∃ t, step (machine .checked 0 [0x00]) = .next t ∧ t.out = [.unknown 0]) ∧
    (∃ t, step (machine .checked 0 [0x54, 0x00]) = .next t ∧ t.out = []) :=
  ⟨⟨_, rfl, rfl⟩, ⟨_, rfl, rfl⟩, ⟨_, rfl, rfl⟩, ⟨_, rfl, rfl⟩⟩

/-- ParametersAreFixed and StatusAndOutputAreUnread. -/
theorem witness_ParametersAreFixed :
    (∃ t, transact (.load 0xFF 0x01) State.reset = .next t) ∧
    (machine .checked 0 [0x01]).runState = .running := ⟨⟨_, rfl⟩, rfl⟩

/-- TerminalLeftOnlyByReset, in each terminal state, with a transaction other than `reset`. -/
theorem witness_TerminalLeftOnlyByReset :
    (State.reset.setRunState .halted).runState.terminal = true ∧
    (State.reset.setRunState .haltedUnknown).runState.terminal = true ∧
    (State.reset.setRunState .faulted).runState.terminal = true ∧
    Transaction.run ≠ .reset := by decide

/-- LoadContract: the longest image, the empty one, and one byte too many. -/
theorem witness_LoadContract : State.reset.runState = .idle ∧
    (List.replicate 256 (0x01 : Byte)).length ≤ 256 ∧ ([] : List Byte).length ≤ (0xFF : Byte).toNat ∧
    256 < (List.replicate 257 (0x01 : Byte)).length := by
  simp only [List.length_replicate]
  decide

/-- RunTransaction: IDLE after reset, and a load that is not refused. -/
theorem witness_RunTransaction : State.reset.runState = .idle ∧
    ∃ s, loadImage [0x01] (State.resetWith Config.default) = some s := ⟨rfl, _, rfl⟩

/-- HostReads. -/
theorem witness_HostReads : (State.reset.setRunState .faulted).runState ≠ .running := by decide

/-- CheckedHelperRules: both ends of the range of k. -/
theorem witness_CheckedHelperRules : (1 ≤ 1 ∧ 1 ≤ 3) ∧ (1 ≤ 3 ∧ 3 ≤ 3) := by decide

/-- TopBitsCountOperands: known bytes of each count, and the lowest byte with bits 7:6 = 11. -/
theorem witness_TopBitsCountOperands : OpcodeMap.default.wf = true ∧
    OpcodeMap.default.lookup 0x11 = some .ret ∧ OpcodeMap.default.lookup 0x56 = some .jne ∧
    OpcodeMap.default.lookup 0xA7 = some .cmp ∧ 0xC0 ≤ (0xC0 : Byte).toNat := by decide

/-- DecodeOfEncode: the default map meets its hypothesis, and so does one with HLT and RET exchanged. -/
theorem witness_DecodeOfEncode : OpcodeMap.default.wf = true ∧
    { OpcodeMap.default with hlt := 0x11, ret := 0x01 }.wf = true := by decide

/-- EncodeOfDecode. -/
theorem witness_EncodeOfDecode :
    decode OpcodeMap.default [0x82, 0xFF, 0xFF, 0x01] = .ok (.ldi 0xFF 0xFF, [0x01]) := rfl

/-- FetchWordRunsNext: at the last pc where three bytes fit. -/
theorem witness_FetchWordRunsNext :
    (machine .checked 0xFD []).cfg.opcodeMap = OpcodeMap.default ∧
    (machine .checked 0xFD []).pc.toNat ≤ 253 ∧
    decodeTableWord 24 0x0100A7 = some (.cmp 0 1) := by decide

/-- MemoryFormIsUnique. -/
theorem witness_MemoryFormIsUnique : Memory.wf [(0, 1), (255, 2)] = true := by decide

/-- ResetMeetsInvariant: parameters with contents of their own. -/
theorem witness_ResetMeetsInvariant : validConfig Config.default = true ∧
    validConfig { Config.default with bounds := .wrap, initFl := 0xFF, initMem := [(0, 1), (255, 2)] } =
      true := by decide

/-- StepKeepsInvariant and TransactionsKeepInvariant: State.reset meets the invariant, and the host's `run` and a
step have next states. -/
theorem witness_StepKeepsInvariant : State.reset.Inv ∧ (∃ t, step State.reset = .next t) ∧
    ∃ t, transact .run State.reset = .next t where
  left :=
    { cfg_valid := by decide
      mem_wf := rfl
      cause_iff_faulted := by decide
      faulted_checked := by decide
      fault_pc := by decide
      no_fault_pc := by decide
      fl_value := rfl
      flags_one_hot := fun _ h => nomatch h
      idle_fresh := fun _ => ⟨rfl, rfl, rfl, rfl⟩
      halted_at_hlt := by decide
      faulted_at_instr := by decide
      unknown_reported := fun h => absurd h (by decide)
      no_unknown := by decide }
  right := ⟨⟨_, rfl⟩, ⟨_, rfl⟩⟩

/-- PushThenPop, for each of its register cases, at SP 1. -/
theorem witness_PushThenPop :
    ((machine .checked 0 []).setReg 7 1).runState = .running ∧
    (∃ t u, exec (.push 0) ((machine .checked 0 []).setReg 7 1) = .next t ∧ t.runState = .running ∧
      exec (.pop 1) t = .next u ∧ u.runState = .running) ∧
    (∃ t u, exec (.push 7) ((machine .checked 0 []).setReg 7 1) = .next t ∧ t.runState = .running ∧
      exec (.pop 7) t = .next u ∧ u.runState = .running) ∧
    (∃ t u, exec (.push 7) ((machine .checked 0 []).setReg 7 1) = .next t ∧ t.runState = .running ∧
      exec (.pop 1) t = .next u ∧ u.runState = .running) ∧
    (∃ t u, exec (.push 0) ((machine .checked 0 []).setReg 7 1) = .next t ∧ t.runState = .running ∧
      exec (.pop 7) t = .next u ∧ u.runState = .running) ∧
    regOf 7 = 7 ∧ regOf 0 ≠ 7 :=
  ⟨rfl, ⟨_, _, rfl, rfl, rfl, rfl⟩, ⟨_, _, rfl, rfl, rfl, rfl⟩, ⟨_, _, rfl, rfl, rfl, rfl⟩,
    ⟨_, _, rfl, rfl, rfl, rfl⟩, by decide, by decide⟩

/-- The call of CallThenReturn: CALL R1 at 0x06 to 0x0B, where a RET stands before the byte `q`. -/
def callSite (q : Byte) : State :=
  (((machine .checked 0x06 [0x50, 0x01]).setReg 1 0x0B).writeByte 0x0B 0x11).writeByte 0x0C q

/-- CallThenReturn, with a quirk byte below 7 and with 7. -/
theorem witness_CallThenReturn :
    ((callSite 2).runState = .running ∧ (callSite 2).cfg.opcodeMap.wf = true ∧
      (callSite 2).readByte 0x06 = 0x50 ∧ (callSite 2).readByte 0x07 = 1 ∧
      (callSite 2).pc.toNat ≤ 252 ∧ names (callSite 2) 1 ∧ regOf 1 ≠ 7 ∧ (callSite 2).sp ≠ 0 ∧
      (callSite 2).reg (regOf 1) = 0x0B ∧ (0x0B : Byte).toNat ≤ 254) ∧
    after (callSite 2) (fun u => (u.readByte 0x0B, u.readByte 0x0C)) = some (0x11, 2) ∧
    after (callSite 7) (fun u => (u.readByte 0x0B, u.readByte 0x0C)) = some (0x11, 7) := by decide

/-- StoreSeenByNextFetch: CALL R7, and a PUSH whose cell is the next instruction's opcode. -/
theorem witness_StoreSeenByNextFetch :
    (∃ t, exec (.call 7) (machine .checked 0x20 [0x50, 0x07]) = .next t ∧ t.runState = .running) ∧
    (∃ t, exec (.push 0) ((machine .checked 0x09 [0x45, 0x00]).setReg 7 0x0C) = .next t ∧
      t.runState = .running) ∧
    ((machine .checked 0x09 [0x45, 0x00]).setReg 7 0x0C).sp - 1 =
      ((machine .checked 0x09 [0x45, 0x00]).setReg 7 0x0C).pc + 2 :=
  ⟨⟨_, rfl, rfl⟩, ⟨_, rfl, rfl⟩, by decide⟩

/-- Program L8 of 95_test_vectors.md before its PUSH R0 at 09: SP = 0D, so the store falls on the operand byte at 0C. -/
def beforeL8Push : State := ((machine .checked 0x09 [0x45, 0x00, 0x47, 0x00]).setReg 0 1).setReg 7 0x0D

/-- CALL R0 with R0 = SP - 1, in WRAP and with SP = 0: the store and the target are address 255, and operand bytes of
the next fetch wrap. -/
def callOntoTarget : State := ((machine .wrap 0x20 [0x50, 0x00]).setReg 0 0xFF).setReg 7 0

/-- StoreSeenByNextFetch, its first clause: at an operand byte (L8), and at the target of a CALL. -/
theorem witness_StoreSeenByNextFetch_everyByte :
    beforeL8Push.runState = .running ∧ callOntoTarget.runState = .running ∧
    (∃ t, exec (.push 0) beforeL8Push = .next t ∧ t.runState = .running ∧ reaches t 1 ∧ t.pc + 1 = 0x0C) ∧
    spdec beforeL8Push.cfg.bounds beforeL8Push.sp = .ok 0x0C ∧ Stores beforeL8Push 0x0C (.push 0) 1 ∧
    (∃ t, exec (.call 0) callOntoTarget = .next t ∧ t.runState = .running ∧ reaches t 2 ∧ t.pc + 0 = 0xFF) ∧
    spdec callOntoTarget.cfg.bounds callOntoTarget.sp = .ok 0xFF ∧
    Stores callOntoTarget 0xFF (.call 0) 0x22 :=
  ⟨rfl, rfl, ⟨_, rfl, rfl, by decide, by decide⟩, rfl, .push 0, ⟨_, rfl, rfl, by decide, by decide⟩, rfl, .call 0⟩

/-- L8 of 95_test_vectors.md: the PRN at 0B is fetched with operand byte 01, so it executes as PRN R1. -/
theorem test_push_onto_next_operand :
    after beforeL8Push (fun t => fetchDecode t) = some (.run (.prn 1)) := by decide

/-- SelfJumpHangs, at the last address a JMP may stand at. -/
theorem witness_SelfJumpHangs :
    let s := (machine .checked 0xFE [0x54, 0x02]).setReg 2 0xFE
    s.runState = .running ∧ s.cfg.opcodeMap.wf = true ∧ reaches s 1 ∧
      s.readByte s.pc = s.cfg.opcodeMap.jmp ∧ s.readByte (s.pc + 1) = 2 ∧ names s 2 ∧
      s.reg (regOf 2) = s.pc := by decide

/-- NoFaultNeeds: a JMP whose last byte is at 255, and a RET at 254. -/
theorem witness_NoFaultNeeds :
    (machine .checked 0xFE [0x54, 0x02]).runState = .running ∧
    (machine .checked 0xFE [0x54, 0x02]).cfg.bounds = .checked ∧
    decode OpcodeMap.default (fetchBytes (machine .checked 0xFE [0x54, 0x02])) = .ok (.jmp 2, []) ∧
    (∃ t, step (machine .checked 0xFE [0x54, 0x02]) = .next t ∧ t.runState ≠ .faulted) ∧
    decode OpcodeMap.default (fetchBytes (machine .checked 0xFE [0x11, 0x02])) = .ok (.ret, [2]) ∧
    (∃ t, step (machine .checked 0xFE [0x11, 0x02]) = .next t ∧ t.runState ≠ .faulted) :=
  ⟨rfl, rfl, rfl, ⟨_, rfl, by decide⟩, rfl, ⟨_, rfl, by decide⟩⟩

/-- AddMulSymmetric. -/
theorem witness_AddMulSymmetric :
    (machine .checked 0xFC []).runState = .running ∧
    (∃ t u, exec (.add 0 7) (machine .checked 0xFC []) = .next t ∧ t.runState = .running ∧
      exec (.add 7 0) (machine .checked 0xFC []) = .next u) ∧
    (∃ t u, exec (.mul 0 7) (machine .checked 0xFC []) = .next t ∧ t.runState = .running ∧
      exec (.mul 7 0) (machine .checked 0xFC []) = .next u) ∧ regOf 0 ≠ regOf 7 :=
  ⟨rfl, ⟨_, _, rfl, rfl, rfl⟩, ⟨_, _, rfl, rfl, rfl⟩, by decide⟩

end Sys2Proof.Tests
end

section
/-! The scope (00_scope.md): the parameters of R6 through every transaction, and the default instantiation. -/

namespace Sys2Proof.Machine

/-! ### The parameters -/

/-- Whatever an instruction commits has the parameters of the state before it. -/
theorem Commits.cfg_eq {s t : State} {i : Instr} (h : Commits s i t) : t.cfg = s.cfg := by
  cases h <;> simp only [State.setPc_cfg, State.setReg_cfg, State.setFl_cfg, State.writeByte_cfg,
    State.emit_cfg, State.setRunState_cfg]

/-- A fault keeps the parameters (60_exceptions.md R162). -/
theorem Faults.cfg_eq {s t : State} (h : Faults s t) : t.cfg = s.cfg := by
  obtain ⟨-, c, rfl⟩ := h
  exact takeFault_cfg c s

theorem exec_cfg {s t : State} {i : Instr} (h : exec i s = .next t) : t.cfg = s.cfg :=
  (exec_cases h).elim Commits.cfg_eq Faults.cfg_eq

theorem step_cfg {s t : State} (h : step s = .next t) : t.cfg = s.cfg := by
  obtain ⟨-, rfl⟩ | ⟨-, ⟨b, -, rfl⟩ | ⟨-, rfl⟩ | ⟨i, rest, -, hexec⟩⟩ := step_cases h
  · rfl
  · exact unknownHalt_cfg b s
  · exact takeFault_cfg .pcRange s
  · exact exec_cfg hexec

@[simp] theorem State.resetWith_cfg (cfg : Config) : (State.resetWith cfg).cfg = cfg := rfl

@[simp] theorem hostReset_cfg (s : State) : (hostReset s).cfg = s.cfg := State.resetWith_cfg s.cfg

@[simp] theorem hostLoad_cfg (addr byte : Byte) (s : State) : (hostLoad addr byte s).cfg = s.cfg := by
  unfold hostLoad
  split
  · exact State.writeByte_cfg s addr byte
  all_goals rfl

@[simp] theorem hostRun_cfg (s : State) : (hostRun s).cfg = s.cfg := by
  unfold hostRun
  split
  · exact State.setRunState_cfg s .running
  all_goals rfl

/-! ### The default instantiation -/

/-- A reset of a block fresh from reset changes nothing (70_reset_and_hazards.md R180). -/
@[simp] theorem hostReset_resetWith (cfg : Config) :
    hostReset (State.resetWith cfg) = State.resetWith cfg := rfl

/-- A reset puts INIT_REGS in R0 to R6 (10_state.md R44). -/
theorem State.resetWith_reg (cfg : Config) (r : RegIdx) (h : r.val < 7) :
    (State.resetWith cfg).reg r = cfg.initRegs[r.val] :=
  Vector.getElem_push_lt h

/-- INIT_REGS of the default instantiation are all zero (log entry 3). -/
theorem Config.default_initRegs (i : Nat) (h : i < 7) : Config.default.initRegs[i] = 0 := by
  interval_cases i <;> rfl

/-- With no initial contents listed, every cell of a block fresh from reset reads as an unlisted one (log entry 5). -/
theorem State.resetWith_readByte {cfg : Config} (h : cfg.initMem = []) (x : Byte) :
    (State.resetWith cfg).readByte x = Memory.unlisted := by
  simp [State.resetWith, State.readByte, h, Memory.read, Memory.lookup]

end Sys2Proof.Machine

namespace Sys2Proof.Stated

open Sys2Proof.Machine

/-- Settles O32: a case per transaction, the step being the one that needs an argument (`step_cfg`). -/
theorem parametersAreFixed : Obligations.ParametersAreFixed := by
  intro tx s t h
  cases tx with
  | step => exact step_cfg h
  | reset => cases h; exact hostReset_cfg s
  | load a v => cases h; exact hostLoad_cfg a v s
  | run => cases h; exact hostRun_cfg s
  | readMem _ => cases h; rfl
  | readState => cases h; rfl
  | readOut => cases h; rfl

/-- Settles O38: INIT_REGS, INIT_FL and INIT_MEM of the default instantiation, read through the reset. -/
theorem defaultReset : Obligations.DefaultReset := by
  refine ⟨congrArg Host.Outcome.next (hostReset_resetWith Config.default), rfl, rfl, ?_, rfl, ?_⟩
  · intro r hr
    have hlt : r.val < 7 := by have := r.isLt; have := Fin.val_ne_of_ne hr; omega
    exact (State.resetWith_reg Config.default r hlt).trans (Config.default_initRegs r.val hlt)
  · exact State.resetWith_readByte rfl

end Sys2Proof.Stated
end

section
/-! The state (10_state.md): what an instruction that commits changes in each field, and what the decoder says of the
opcode at pc. -/

namespace Sys2Proof.Machine

/-! ### What a commit changes, field by field -/

theorem Faults.runState_eq {s t : State} (h : Faults s t) : t.runState = .faulted := by
  obtain ⟨-, c, rfl⟩ := h
  exact takeFault_runState c s

/-- An instruction that does not fault commits the state its rule gives. -/
theorem commits_of_exec {s t : State} {i : Instr} (h : exec i s = .next t)
    (ht : t.runState ≠ .faulted) : Commits s i t :=
  (exec_cases h).resolve_right fun hf => ht hf.runState_eq

/-- An instruction that leaves the block RUNNING commits the state its rule gives. -/
theorem commits_of_exec_running {s t : State} {i : Instr} (h : exec i s = .next t)
    (ht : t.runState = .running) : Commits s i t :=
  commits_of_exec h (by simp [ht])

/-- No instruction that commits writes FAULT_CAUSE (10_state.md R32). -/
theorem Commits.faultCause_eq {s t : State} {i : Instr} (h : Commits s i t) :
    t.faultCause = s.faultCause := by
  cases h <;> rfl

/-- No instruction that commits writes FAULT_PC (R33). -/
theorem Commits.faultPc_eq {s t : State} {i : Instr} (h : Commits s i t) : t.faultPc = s.faultPc := by
  cases h <;> rfl

/-- Only HLT writes RUN_STATE (R31, 41_system.md R112). -/
theorem Commits.runState_eq {s t : State} {i : Instr} (h : Commits s i t) (hi : i ≠ .hlt) :
    t.runState = s.runState := by
  cases h
  case hlt => exact absurd rfl hi
  all_goals rfl

/-- HLT leaves the block HALTED where it stands, and changes nothing else (R110). -/
theorem Commits.eq_of_hlt {s t : State} (h : Commits s .hlt t) : t = s.setRunState .halted := by
  cases h; rfl

/-- FL and OUT: CMP writes FL and emits it, PRN emits its register, and no other instruction touches either (R28, R38). -/
theorem Commits.output_cases {s t : State} {i : Instr} (h : Commits s i t) :
    (t.fl = s.fl ∧ t.out = s.out) ∨
    (∃ a, i = .prn a ∧ t.fl = s.fl ∧ t.out = s.out ++ [.print (s.reg (regOf a))]) ∨
    (∃ a b, i = .cmp a b ∧ t.fl = compareFlags (s.reg (regOf a)) (s.reg (regOf b)) ∧
      t.out = s.out ++ [.flags t.fl]) := by
  cases h
  case prn => exact .inr (.inl ⟨_, rfl, rfl, rfl⟩)
  case cmp => exact .inr (.inr ⟨_, _, rfl, rfl, rfl⟩)
  all_goals exact .inl ⟨rfl, rfl⟩

/-- Memory: PUSH and CALL store one byte at SP - 1, and no other instruction stores (20_memory.md R51). -/
theorem Commits.mem_cases {s t : State} {i : Instr} (h : Commits s i t) :
    t.mem = s.mem ∨
    ((∃ a, i = .push a ∨ i = .call a) ∧ ∃ v, t.mem = Memory.write s.mem (s.sp - 1) v) := by
  cases h
  case push a _ _ _ => exact .inr ⟨⟨a, .inl rfl⟩, _, rfl⟩
  case call a _ _ _ => exact .inr ⟨⟨a, .inr rfl⟩, _, rfl⟩
  all_goals exact .inl rfl

/-- The registers an instruction writes when it commits (R22): Ra for LDI, MUL and ADD, SP for PUSH and CALL, SP and
the popped register for POP and RET. -/
def writtenRegs (s : State) : Instr → List RegIdx
  | .ldi a _ | .mul a _ | .add a _ => [regOf a]
  | .push _ | .call _ => [spIdx]
  | .pop a => [regOf a, spIdx]
  | .ret => [regOf (s.readByte (s.pc + 1)), spIdx]
  | .hlt | .prn _ | .cmp _ _ | .jeq _ | .jne _ | .jmp _ => []

/-- Every other register keeps its value (R22). -/
theorem Commits.reg_eq {s t : State} {i : Instr} (h : Commits s i t) {r : RegIdx}
    (hr : r ∉ writtenRegs s i) : t.reg r = s.reg r := by
  cases h
  case hlt | prn | cmp | jeqTaken | jeqNext | jneTaken | jneNext | jmp => rfl
  case ldi | mul | add | push | call =>
    exact State.reg_setReg_ne s _ (List.ne_of_not_mem_cons hr)
  case pop | ret =>
    exact (State.reg_setReg_ne _ _ (List.ne_of_not_mem_cons (List.not_mem_of_not_mem_cons hr))).trans
      (State.reg_setReg_ne s _ (List.ne_of_not_mem_cons hr))

/-- Only CMP writes FL (R28). -/
theorem Commits.fl_eq {s t : State} {i : Instr} (h : Commits s i t) (hc : i.mnemonic ≠ .cmp) :
    t.fl = s.fl := by
  obtain ⟨ef, -⟩ | ⟨a, -, ef, -⟩ | ⟨a, b, rfl, -⟩ := h.output_cases
  · exact ef
  · exact ef
  · exact absurd rfl hc

/-- Only PRN and CMP emit (R38). -/
theorem Commits.out_eq {s t : State} {i : Instr} (h : Commits s i t) (hp : i.mnemonic ≠ .prn)
    (hc : i.mnemonic ≠ .cmp) : t.out = s.out := by
  obtain ⟨-, eo⟩ | ⟨a, rfl, -⟩ | ⟨a, b, rfl, -⟩ := h.output_cases
  · exact eo
  · exact absurd rfl hp
  · exact absurd rfl hc

/-- Only PUSH and CALL store (20_memory.md R51). -/
theorem Commits.mem_eq {s t : State} {i : Instr} (h : Commits s i t) (hp : i.mnemonic ≠ .push)
    (hc : i.mnemonic ≠ .call) : t.mem = s.mem := by
  obtain hm | ⟨⟨a, rfl | rfl⟩, -⟩ := h.mem_cases
  · exact hm
  · exact absurd rfl hp
  · exact absurd rfl hc

/-- No instruction changes a byte at an address other than SP - 1 (20_memory.md R51). -/
theorem Commits.readByte_eq_of_ne {s t : State} {i : Instr} (h : Commits s i t) {x : Byte}
    (hx : x ≠ s.sp - 1) : t.readByte x = s.readByte x := by
  unfold State.readByte
  obtain hm | ⟨-, v, hm⟩ := h.mem_cases
  · rw [hm]
  · rw [hm, Memory.read_write, if_neg hx]

/-- What commits keeps the parameters and the fault registers (R32, R33). -/
theorem Commits.sameStatus {s t : State} {i : Instr} (h : Commits s i t) : Stated.sameStatus s t :=
  ⟨h.cfg_eq, h.faultCause_eq, h.faultPc_eq⟩

/-- The canonical form of memory survives every commit. -/
theorem Commits.mem_wf {s t : State} {i : Instr} (h : Commits s i t) (hs : Memory.wf s.mem = true) :
    Memory.wf t.mem = true := by
  obtain hm | ⟨-, v, hm⟩ := h.mem_cases
  · rwa [hm]
  · exact hm ▸ Memory.wf_write _ _ hs

/-- A comparison sets exactly one of the three bits (43_arith.md R132). -/
theorem compareFlags_one_hot (u w : Byte) :
    compareFlags u w = 1 ∨ compareFlags u w = 2 ∨ compareFlags u w = 4 := by
  unfold compareFlags
  split
  · exact .inl rfl
  · split
    · exact .inr (.inl rfl)
    · exact .inr (.inr rfl)

/-- The value CMP computes is the one the statements name (43_arith.md R132). -/
theorem compareFlags_eq_cmpValue (u w : Byte) : compareFlags u w = Stated.cmpValue u w := by
  unfold compareFlags Stated.cmpValue
  simp only [BitVec.toNat_inj, gt_iff_lt, ← BitVec.lt_def]

/-- The address `spdec` answers is one below SP (40_dispatch.md R96). -/
theorem eq_sub_one_of_spdec {mode : BoundsMode} {v addr : Byte} (h : spdec mode v = .ok addr) :
    addr = v - 1 := by
  obtain ⟨-, e⟩ | ⟨-, -, e⟩ := spdec_cases mode v <;> rw [e] at h <;> cases h
  rfl

/-! ### What the decoder says of the opcode -/

theorem take1_cases (mk : Byte → Instr) (bytes : List Byte) :
    (∃ a rest, take1 mk bytes = .ok (mk a, rest)) ∨ take1 mk bytes = .error .truncated := by
  match bytes with
  | []        => exact .inr rfl
  | a :: rest => exact .inl ⟨a, rest, rfl⟩

theorem take2_cases (mk : Byte → Byte → Instr) (bytes : List Byte) :
    (∃ a b rest, take2 mk bytes = .ok (mk a b, rest)) ∨ take2 mk bytes = .error .truncated := by
  match bytes with
  | [] | [_]       => exact .inr rfl
  | a :: b :: rest => exact .inl ⟨a, b, rest, rfl⟩

/-- The bytes after an opcode give an instruction of its row, or they end too early (30_encoding.md R79). -/
theorem decodeOperands_cases (k : Mnemonic) (bytes : List Byte) :
    (∃ i rest, decodeOperands k bytes = .ok (i, rest) ∧ i.mnemonic = k) ∨
    decodeOperands k bytes = .error .truncated := by
  cases k with
  | hlt | ret => exact .inl ⟨_, _, rfl, rfl⟩
  | ldi | mul | add | cmp =>
    exact (take2_cases _ bytes).imp_left fun ⟨a, b, rest, h⟩ => ⟨_, rest, h, rfl⟩
  | prn | push | pop | call | jeq | jne | jmp =>
    exact (take1_cases _ bytes).imp_left fun ⟨a, rest, h⟩ => ⟨_, rest, h, rfl⟩

/-- Everything the decoder can answer, by the row of the opcode (R79). -/
theorem decode_cons_cases (map : OpcodeMap) (op : Byte) (bytes : List Byte) :
    (map.lookup op = none ∧ decode map (op :: bytes) = .error (.unknownOpcode op)) ∨
    (∃ i rest, map.lookup op = some i.mnemonic ∧ decode map (op :: bytes) = .ok (i, rest)) ∨
    ((map.lookup op).isSome ∧ decode map (op :: bytes) = .error .truncated) := by
  cases hk : map.lookup op with
  | none => exact .inl ⟨rfl, by simp only [decode, hk]⟩
  | some k =>
    have hd : decode map (op :: bytes) = decodeOperands k bytes := by simp only [decode, hk]
    obtain ⟨i, rest, ho, rfl⟩ | ho := decodeOperands_cases k bytes
    · exact .inr (.inl ⟨i, rest, rfl, hd.trans ho⟩)
    · exact .inr (.inr ⟨rfl, hd.trans ho⟩)

/-- Bytes that decode begin with an opcode of the instruction's row (R79). -/
theorem lookup_of_decode_ok {map : OpcodeMap} {op : Byte} {bytes rest : List Byte} {i : Instr}
    (h : decode map (op :: bytes) = .ok (i, rest)) : map.lookup op = some i.mnemonic := by
  obtain ⟨-, hd⟩ | ⟨j, r, hk, hd⟩ | ⟨-, hd⟩ := decode_cons_cases map op bytes <;> rw [hd] at h <;> cases h
  exact hk

/-- Bytes that end too early begin with a known opcode (R93, R101). -/
theorem lookup_of_decode_truncated {map : OpcodeMap} {op : Byte} {bytes : List Byte}
    (h : decode map (op :: bytes) = .error .truncated) : (map.lookup op).isSome := by
  obtain ⟨-, hd⟩ | ⟨j, r, -, hd⟩ | ⟨hk, hd⟩ := decode_cons_cases map op bytes <;> rw [hd] at h <;> cases h
  exact hk

/-- A byte reported as unknown is the first one, and no row of the map has it (R76, R92). -/
theorem lookup_of_decode_unknown {map : OpcodeMap} {op b : Byte} {bytes : List Byte}
    (h : decode map (op :: bytes) = .error (.unknownOpcode b)) : b = op ∧ map.lookup op = none := by
  obtain ⟨hk, hd⟩ | ⟨j, r, -, hd⟩ | ⟨-, hd⟩ := decode_cons_cases map op bytes <;> rw [hd] at h <;> cases h
  exact ⟨rfl, hk⟩

/-- The bytes end too early only with CHECKED: with WRAP a fetch reads the longest instruction (R93, R94). -/
theorem checked_of_fetch_truncated {s : State}
    (h : decode s.cfg.opcodeMap (fetchBytes s) = .error .truncated) : s.cfg.bounds = .checked := by
  cases hb : s.cfg.bounds with
  | checked => rfl
  | wrap =>
    have reach (n : Nat) : seq .wrap s.pc n = .ok (s.pc + BitVec.ofNat 8 n) := seq_ok nofun
    simp only [fetchBytes_eq, bytesFrom, hb, reach, decode] at h
    split at h
    · cases h
    · next k _ => cases k <;> cases h

end Sys2Proof.Machine
end

section
/-! The invariant `State.Inv` (10_state.md R28, R31 to R33, R38; 60_exceptions.md R161 to R163): after reset, through
every step and through every transaction. -/

namespace Sys2Proof.Machine

/-! ### The last FLAGS event and UNKNOWN events of a longer stream -/

/-- The last FLAGS event of two streams is the later one's, where it has any. -/
theorem lastFlags_append (es es' : List Event) :
    lastFlags (es ++ es') = (lastFlags es').or (lastFlags es) := by
  induction es with
  | nil => simp [lastFlags]
  | cons e es ih =>
    cases e with
    | print v => exact ih
    | flags f => simp [lastFlags, ih, Option.orElse_eq_or]
    | unknown op => exact ih

/-- What the invariant says of FL and OUT before an unknown-instruction halt. -/
structure State.FlagsTracked (s : State) : Prop where
  fl_value : s.fl = (lastFlags s.out).getD s.cfg.initFl
  one_hot : ∀ f, Event.flags f ∈ s.out → f = 1 ∨ f = 2 ∨ f = 4
  no_unknown : ∀ e ∈ s.out, e.isUnknown = false

/-- FL stays the last FLAGS event through every commit: CMP writes both, PRN and the others neither (R28, R38). -/
theorem Commits.flagsTracked {s t : State} {i : Instr} (h : Commits s i t) (hs : s.FlagsTracked) :
    t.FlagsTracked := by
  obtain ⟨hfl, hhot, hunk⟩ := hs
  obtain ⟨ef, eo⟩ | ⟨a, -, ef, eo⟩ | ⟨a, b, -, ef, eo⟩ := h.output_cases
  · exact ⟨by rw [ef, eo, h.cfg_eq, hfl], eo ▸ hhot, eo ▸ hunk⟩
  · refine ⟨?_, ?_, ?_⟩
    · simp [ef, eo, h.cfg_eq, hfl, lastFlags_append, lastFlags]
    · simpa [eo] using hhot
    · simpa [eo, or_imp, forall_and, Event.isUnknown] using hunk
  · have hot : t.fl = 1 ∨ t.fl = 2 ∨ t.fl = 4 := ef ▸ compareFlags_one_hot _ _
    refine ⟨?_, ?_, ?_⟩
    · simp [eo, lastFlags_append, lastFlags]
    · intro f hf
      rw [eo, List.mem_append, List.mem_singleton, Event.flags.injEq] at hf
      obtain hf | rfl := hf
      · exact hhot f hf
      · exact hot
    · simpa [eo, or_imp, forall_and, Event.isUnknown] using hunk

theorem State.Inv.flagsTracked {s : State} (h : s.Inv) (hr : s.runState ≠ .haltedUnknown) :
    s.FlagsTracked :=
  ⟨h.fl_value, h.flags_one_hot, h.no_unknown hr⟩

/-- FAULT_CAUSE is NONE before a fault (R32). -/
theorem State.Inv.faultCause_eq_none {s : State} (h : s.Inv) (hr : s.runState ≠ .faulted) :
    s.faultCause = .none :=
  Classical.not_not.mp (mt h.cause_iff_faulted.mp hr)

/-- While RUNNING the invariant is what it says of the parameters, memory, the fault registers, FL and OUT. -/
theorem State.Inv.of_running {s : State} (hr : s.runState = .running) (hcfg : validConfig s.cfg = true)
    (hmem : Memory.wf s.mem = true) (hcause : s.faultCause = .none) (hpc : s.faultPc = 0)
    (ho : s.FlagsTracked) : s.Inv where
  cfg_valid := hcfg
  mem_wf := hmem
  cause_iff_faulted := by simp [hr, hcause]
  faulted_checked := by simp [hr]
  fault_pc := by simp [hr]
  no_fault_pc _ _ := hpc
  fl_value := ho.fl_value
  flags_one_hot := ho.one_hot
  idle_fresh := by simp [hr]
  halted_at_hlt := by simp [hr]
  faulted_at_instr := by simp [hr]
  unknown_reported := by simp [hr]
  no_unknown _ := ho.no_unknown

/-! ### One lemma per way a step can end -/

/-- HLT at its opcode (41_system.md R110). -/
theorem State.Inv.halt {s : State} (h : s.Inv) (hr : s.runState = .running)
    (hop : s.cfg.opcodeMap.lookup (s.readByte s.pc) = some .hlt) : (s.setRunState .halted).Inv where
  cfg_valid := h.cfg_valid
  mem_wf := h.mem_wf
  cause_iff_faulted := by simp [h.faultCause_eq_none, hr]
  faulted_checked := by simp
  fault_pc := by simp
  no_fault_pc _ _ := h.no_fault_pc (by simp [hr]) (by simp [hr])
  fl_value := h.fl_value
  flags_one_hot := h.flags_one_hot
  idle_fresh := by simp
  halted_at_hlt _ := hop
  faulted_at_instr := by simp
  unknown_reported := by simp
  no_unknown _ := h.no_unknown (by simp [hr])

/-- Every other instruction that commits leaves the block RUNNING. -/
theorem Commits.inv {s t : State} {i : Instr} (hi : i ≠ .hlt) (h : Commits s i t) (hs : s.Inv)
    (hr : s.runState = .running) : t.Inv :=
  .of_running ((h.runState_eq hi).trans hr) (h.cfg_eq ▸ hs.cfg_valid) (h.mem_wf hs.mem_wf)
    (h.faultCause_eq.trans (hs.faultCause_eq_none (by simp [hr])))
    (h.faultPc_eq.trans (hs.no_fault_pc (by simp [hr]) (by simp [hr])))
    (h.flagsTracked (hs.flagsTracked (by simp [hr])))

/-- A range fault with CHECKED at an instruction (60_exceptions.md R161, R162). -/
theorem State.Inv.takeFault {s : State} (c : RangeFault) (h : s.Inv) (hr : s.runState = .running)
    (hc : s.cfg.bounds = .checked) (hop : (s.cfg.opcodeMap.lookup (s.readByte s.pc)).isSome) :
    (takeFault c s).Inv where
  cfg_valid := h.cfg_valid
  mem_wf := h.mem_wf
  cause_iff_faulted := by cases c <;> simp [RangeFault.cause]
  faulted_checked _ := hc
  fault_pc _ := rfl
  no_fault_pc := by simp
  fl_value := h.fl_value
  flags_one_hot := h.flags_one_hot
  idle_fresh := by simp
  halted_at_hlt := by simp
  faulted_at_instr _ := hop
  unknown_reported := by simp
  no_unknown _ := h.no_unknown (by simp [hr])

/-- The unknown-instruction halt at a byte no row of the map has (R163). -/
theorem State.Inv.unknownHalt {s : State} (h : s.Inv) (hr : s.runState = .running)
    (hop : s.cfg.opcodeMap.lookup (s.readByte s.pc) = none) :
    (unknownHalt (s.readByte s.pc) s).Inv where
  cfg_valid := h.cfg_valid
  mem_wf := h.mem_wf
  cause_iff_faulted := by simp [h.faultCause_eq_none, hr]
  faulted_checked := by simp
  fault_pc _ := rfl
  no_fault_pc := by simp
  fl_value := by simpa [lastFlags_append, lastFlags] using h.fl_value
  flags_one_hot := by simpa using h.flags_one_hot
  idle_fresh := by simp
  halted_at_hlt := by simp
  faulted_at_instr := by simp
  unknown_reported _ := ⟨hop, s.out, rfl, h.no_unknown (by simp [hr])⟩
  no_unknown := by simp

/-! ### Reset, load and run -/

/-- A reset with valid parameters meets the invariant (70_reset_and_hazards.md R180). -/
theorem State.Inv.resetWith {cfg : Config} (h : validConfig cfg = true) : (State.resetWith cfg).Inv where
  cfg_valid := h
  mem_wf := (Bool.and_eq_true_iff.mp h).2
  cause_iff_faulted := by simp [State.resetWith]
  faulted_checked := nofun
  fault_pc := by simp [State.resetWith]
  no_fault_pc _ _ := rfl
  fl_value := rfl
  flags_one_hot := nofun
  idle_fresh _ := ⟨rfl, rfl, rfl, rfl⟩
  halted_at_hlt := nofun
  faulted_at_instr := nofun
  unknown_reported := nofun
  no_unknown _ := nofun

/-- A load changes memory alone, and only while IDLE, where the invariant says nothing of the byte at pc. -/
theorem State.Inv.hostLoad {s : State} (addr byte : Byte) (h : s.Inv) : (hostLoad addr byte s).Inv := by
  unfold Machine.hostLoad
  split
  · next hr =>
    exact { h with
      mem_wf := State.wf_writeByte addr byte h.mem_wf
      halted_at_hlt := by simp [hr]
      faulted_at_instr := by simp [hr]
      unknown_reported := by simp [hr] }
  all_goals exact h

/-- A run starts an IDLE block, whose fault registers and OUT are as after reset (10_state.md R41). -/
theorem State.Inv.hostRun {s : State} (h : s.Inv) : (hostRun s).Inv := by
  unfold Machine.hostRun
  split
  · next hr =>
    obtain ⟨hfl, hhot, hunk⟩ := h.flagsTracked (by simp [hr])
    exact .of_running rfl h.cfg_valid h.mem_wf (h.faultCause_eq_none (by simp [hr]))
      (h.no_fault_pc (by simp [hr]) (by simp [hr])) ⟨hfl, hhot, hunk⟩
  all_goals exact h

end Sys2Proof.Machine

namespace Sys2Proof.Stated

open Sys2Proof.Machine

/-- Settles O50: a case per way a step can end (`step_cases`, `exec_cases`); that the block stands at an instruction, at
its HLT or at an unknown byte comes from the decoder's answer. -/
theorem stepKeepsInvariant : Obligations.StepKeepsInvariant := by
  intro s t hs h
  obtain ⟨-, rfl⟩ | ⟨hr, ⟨b, hd, rfl⟩ | ⟨hd, rfl⟩ | ⟨i, rest, hd, hexec⟩⟩ := step_cases h
  · exact hs
  · obtain ⟨rfl, hop⟩ := lookup_of_decode_unknown hd
    exact hs.unknownHalt hr hop
  · exact hs.takeFault .pcRange hr (checked_of_fetch_truncated hd) (lookup_of_decode_truncated hd)
  · have hop := lookup_of_decode_ok hd
    obtain hcom | ⟨hc, c, rfl⟩ := exec_cases hexec
    · by_cases hi : i = .hlt
      · subst hi
        exact hcom.eq_of_hlt ▸ hs.halt hr hop
      · exact hcom.inv hi hs hr
    · exact hs.takeFault c hr hc (hop ▸ rfl)

/-- Settles O49: the values a reset writes, for any valid parameters and for the default ones. -/
theorem resetMeetsInvariant : Obligations.ResetMeetsInvariant :=
  ⟨fun _ => .resetWith, .resetWith (by decide)⟩

/-- Settles O51: a case per transaction, the step being O50 and a reset O49. -/
theorem transactionsKeepInvariant : Obligations.TransactionsKeepInvariant := by
  intro tx s t hs h
  cases tx with
  | step => exact stepKeepsInvariant s t hs h
  | reset => cases h; exact .resetWith hs.cfg_valid
  | load a v => cases h; exact hs.hostLoad a v
  | run => cases h; exact hs.hostRun
  | readMem _ => cases h; exact hs
  | readState => cases h; exact hs
  | readOut => cases h; exact hs

end Sys2Proof.Stated
end

section
/-! The frames of the instructions that commit (10_state.md R22, R25; 20_memory.md R51), and the one writer of FL and of
each kind of event (R28, R38). -/

namespace Sys2Proof.Stated

open Sys2Proof.Machine

/-- Settles O14: the three write Ra alone, emit nothing and store nothing. -/
theorem registerWritersFrame : Obligations.RegisterWritersFrame := by
  intro a b i s t hi _ h ht
  have hc := commits_of_exec_running h ht
  have hmem : t.mem = s.mem := by obtain rfl | rfl | rfl := hi <;> exact hc.mem_eq nofun nofun
  refine ⟨fun r hr => hc.reg_eq ?_, ?_, ?_, fun x => congrArg (Memory.read · x) hmem, hc.sameStatus⟩
  · obtain rfl | rfl | rfl := hi <;> exact List.not_mem_cons_of_ne_of_not_mem hr List.not_mem_nil
  · obtain rfl | rfl | rfl := hi <;> exact hc.fl_eq nofun
  · obtain rfl | rfl | rfl := hi <;> exact hc.out_eq nofun nofun

/-- Settles O15: none of the six writes a register or stores; of FL, OUT and RUN_STATE each has its one or two writers. -/
theorem nonStoringFrame : Obligations.NonStoringFrame := by
  intro a b i s t hi hr h ht
  have hc := commits_of_exec h ht
  have hregs : writtenRegs s i = [] := by obtain rfl | rfl | rfl | rfl | rfl | rfl := hi <;> rfl
  have hmem : t.mem = s.mem := by
    obtain rfl | rfl | rfl | rfl | rfl | rfl := hi <;> exact hc.mem_eq nofun nofun
  have hcmp : i ≠ .cmp a b → i.mnemonic ≠ .cmp := by
    obtain rfl | rfl | rfl | rfl | rfl | rfl := hi <;> simp [Instr.mnemonic]
  have hprn : i ≠ .prn a → i.mnemonic ≠ .prn := by
    obtain rfl | rfl | rfl | rfl | rfl | rfl := hi <;> simp [Instr.mnemonic]
  refine ⟨fun r => hc.reg_eq (hregs ▸ List.not_mem_nil), fun x => congrArg (Memory.read · x) hmem,
    hc.sameStatus, fun h1 => hc.fl_eq (hcmp h1), fun h1 h2 => hc.out_eq (hprn h2) (hcmp h1),
    fun h1 => (hc.runState_eq h1).trans hr, ?_⟩
  rintro rfl
  rw [hc.eq_of_hlt, State.setRunState_pc]

/-- Settles O16: the two write SP alone, emit nothing and store only at the address `spdec` gives. -/
theorem stackWritersFrame : Obligations.StackWritersFrame := by
  intro a i s t hi _ h ht
  have hc := commits_of_exec_running h ht
  refine ⟨fun r hr => hc.reg_eq ?_, ?_, ?_, hc.sameStatus, fun addr haddr x hx => ?_⟩
  · obtain rfl | rfl := hi <;> exact List.not_mem_cons_of_ne_of_not_mem hr List.not_mem_nil
  · obtain rfl | rfl := hi <;> exact hc.fl_eq nofun
  · obtain rfl | rfl := hi <;> exact hc.out_eq nofun nofun
  · exact hc.readByte_eq_of_ne (eq_sub_one_of_spdec haddr ▸ hx)

/-- Settles O17: the two write SP and the popped register, emit nothing and store nothing. -/
theorem stackReadersFrame : Obligations.StackReadersFrame := by
  intro a i s t hi _ h ht
  have hc := commits_of_exec_running h ht
  have hregs : writtenRegs s i = [regOf a, spIdx] := by obtain rfl | ⟨rfl, rfl⟩ := hi <;> rfl
  have hmem : t.mem = s.mem := by obtain rfl | ⟨rfl, -⟩ := hi <;> exact hc.mem_eq nofun nofun
  refine ⟨fun r h7 hr => hc.reg_eq ?_, ?_, ?_, hc.sameStatus, fun x => congrArg (Memory.read · x) hmem⟩
  · simp [hregs, hr, spIdx, h7]
  · obtain rfl | ⟨rfl, -⟩ := hi <;> exact hc.fl_eq nofun
  · obtain rfl | ⟨rfl, -⟩ := hi <;> exact hc.out_eq nofun nofun

/-- Settles O28: a stop keeps FL, and of what can commit only CMP writes it. -/
theorem onlyCompareWritesFlags : Obligations.OnlyCompareWritesFlags := by
  intro s t h hfl
  obtain ⟨-, rfl⟩ | ⟨-, ⟨b, -, rfl⟩ | ⟨-, rfl⟩ | ⟨i, rest, hd, hexec⟩⟩ := step_cases h
  · exact absurd rfl hfl
  · exact absurd (unknownHalt_fl b s) hfl
  · exact absurd (takeFault_fl .pcRange s) hfl
  obtain hc | ⟨-, c, rfl⟩ := exec_cases hexec
  · obtain ⟨ef, -⟩ | ⟨a, -, ef, -⟩ | ⟨a, b, rfl, ef, -⟩ := hc.output_cases
    · exact absurd ef hfl
    · exact absurd ef hfl
    · exact ⟨a, b, rest, hd, ef.trans (compareFlags_eq_cmpValue _ _)⟩
  · exact absurd (takeFault_fl c s) hfl

/-- Settles O31: a fault emits nothing, the unknown-instruction halt its byte, and a commit what `output_cases` says. -/
theorem outputEvents : Obligations.OutputEvents := by
  intro s t h
  obtain ⟨-, rfl⟩ | ⟨-, ⟨b, hd, rfl⟩ | ⟨-, rfl⟩ | ⟨i, rest, hd, hexec⟩⟩ := step_cases h
  · exact .inl rfl
  · obtain ⟨rfl, hop⟩ := lookup_of_decode_unknown hd
    exact .inr (.inr (.inr ⟨hop, rfl, rfl⟩))
  · exact .inl rfl
  obtain hc | ⟨-, c, rfl⟩ := exec_cases hexec
  · obtain ⟨-, eo⟩ | ⟨a, rfl, -, eo⟩ | ⟨a, b, rfl, -, eo⟩ := hc.output_cases
    · exact .inl eo
    · exact .inr (.inl ⟨a, rest, hd, eo⟩)
    · exact .inr (.inr (.inl ⟨a, b, rest, hd, eo⟩))
  · exact .inl rfl

end Sys2Proof.Stated
end

section
/-! Noninterference (10_state.md R28, R32, R33, R38): two runs whose states differ in FL, FAULT_CAUSE, FAULT_PC and OUT
alone, and agree on FL[0]. `Tracks` holds of the two working copies throughout an instruction. -/

namespace Sys2Proof.Machine

/-- The state with other values in what no program reads whole: FL, FAULT_CAUSE, FAULT_PC and OUT. -/
def State.withUnread (s : State) (f : Byte) (c : FaultCause) (p : Byte) (o : List Event) : State :=
  { s with fl := f, faultCause := c, faultPc := p, out := o }

/-- Two runs that began at `s` and `u` have reached `t` and `v`, which are alike but for FL, FAULT_CAUSE, FAULT_PC and
OUT; in each of those the two runs wrote the same or nothing. -/
structure Tracks (s u t v : State) : Prop where
  rest : v = t.withUnread v.fl v.faultCause v.faultPc v.out
  fl : v.fl = t.fl ∨ (v.fl = u.fl ∧ t.fl = s.fl)
  faultCause : v.faultCause = t.faultCause ∨ (v.faultCause = u.faultCause ∧ t.faultCause = s.faultCause)
  faultPc : v.faultPc = t.faultPc ∨ (v.faultPc = u.faultPc ∧ t.faultPc = s.faultPc)
  out : ∃ new, t.out = s.out ++ new ∧ v.out = u.out ++ new

/-! ### One rule per operation on the working copies -/

namespace Tracks

variable {s u t v : State}

theorem refl (h : u = s.withUnread u.fl u.faultCause u.faultPc u.out) : Tracks s u s u :=
  ⟨h, .inr ⟨rfl, rfl⟩, .inr ⟨rfl, rfl⟩, .inr ⟨rfl, rfl⟩, [], by simp, by simp⟩

theorem setReg (h : Tracks s u t v) (i : RegIdx) (x : Byte) : Tracks s u (t.setReg i x) (v.setReg i x) :=
  ⟨congrArg (State.setReg · i x) h.rest, h.fl, h.faultCause, h.faultPc, h.out⟩

theorem setPc (h : Tracks s u t v) (x : Byte) : Tracks s u (t.setPc x) (v.setPc x) :=
  ⟨congrArg (State.setPc · x) h.rest, h.fl, h.faultCause, h.faultPc, h.out⟩

theorem writeByte (h : Tracks s u t v) (a x : Byte) :
    Tracks s u (t.writeByte a x) (v.writeByte a x) :=
  ⟨congrArg (State.writeByte · a x) h.rest, h.fl, h.faultCause, h.faultPc, h.out⟩

theorem setRunState (h : Tracks s u t v) (r : RunState) :
    Tracks s u (t.setRunState r) (v.setRunState r) :=
  ⟨congrArg (State.setRunState · r) h.rest, h.fl, h.faultCause, h.faultPc, h.out⟩

theorem setFl (h : Tracks s u t v) (x : Byte) : Tracks s u (t.setFl x) (v.setFl x) :=
  ⟨congrArg (State.setFl · x) h.rest, .inl rfl, h.faultCause, h.faultPc, h.out⟩

theorem emit (h : Tracks s u t v) (e : Event) : Tracks s u (t.emit e) (v.emit e) := by
  obtain ⟨new, ht, hv⟩ := h.out
  exact ⟨congrArg (State.emit · e) h.rest, h.fl, h.faultCause, h.faultPc, new ++ [e],
    by simp [ht], by simp [hv]⟩

theorem pc (h : Tracks s u t v) : v.pc = t.pc := by rw [h.rest]; rfl

theorem takeFault (h : Tracks s u t v) (c : RangeFault) :
    Tracks s u (takeFault c t) (takeFault c v) where
  rest := by
    rw [takeFault_faultPc, h.pc]
    exact congrArg (Machine.takeFault c) h.rest
  fl := h.fl
  faultCause := .inl rfl
  faultPc := .inl h.pc
  out := h.out

theorem unknownHalt (h : Tracks s u t v) (op : Byte) :
    Tracks s u (unknownHalt op t) (unknownHalt op v) where
  rest := by
    rw [unknownHalt_faultPc, h.pc]
    exact congrArg (Machine.unknownHalt op) h.rest
  fl := h.fl
  faultCause := h.faultCause
  faultPc := .inl h.pc
  out := (h.emit (.unknown op)).out

end Tracks

/-- Two handlers that raise the same fault, or leave working copies that track each other. -/
inductive TrackWorking (s u : State) : Working → Working → Prop where
  | ok {t v : State} : Tracks s u t v → TrackWorking s u (.ok t) (.ok v)
  | error (c : RangeFault) : TrackWorking s u (.error c) (.error c)

/-- Two outcomes with next states that track each other. -/
def TrackNext (s u : State) (x y : Host.Outcome State Fault Refusal) : Prop :=
  ∃ t v, x = .next t ∧ y = .next v ∧ Tracks s u t v

/-- A check both handlers make passes in both with one value, or raises in both. -/
theorem TrackWorking.bind {s u : State} {α : Type} {x : Except RangeFault α} {f g : α → Working}
    (h : ∀ a, TrackWorking s u (f a) (g a)) : TrackWorking s u (x >>= f) (x >>= g) := by
  cases x with
  | ok a => exact h a
  | error c => exact .error c

theorem TrackNext.commit {s u : State} {w w' : Working} (h0 : Tracks s u s u)
    (h : TrackWorking s u w w') : TrackNext s u (commit s w) (commit u w') := by
  cases h with
  | ok h => exact ⟨_, _, rfl, rfl, h⟩
  | error c => exact ⟨_, _, rfl, rfl, h0.takeFault c⟩

/-! ### The instructions -/

section

variable {s : State} {f p : Byte} {c : FaultCause} {o : List Event}

/-- The two runs begin alike. -/
theorem tracks_start : Tracks s (s.withUnread f c p o) s (s.withUnread f c p o) := .refl rfl

/-- The next sequential pc is the same in both runs. -/
theorem track_advance {k : Nat} {t v : State} (h : Tracks s (s.withUnread f c p o) t v) :
    TrackWorking s (s.withUnread f c p o) (advance s k t) (advance (s.withUnread f c p o) k v) :=
  .bind fun _ => .ok (h.setPc _)

/-- POP and RET read the same byte from the stack in both runs. -/
theorem track_popInto {i : RegIdx} {x : Byte} {k k' : State → Working}
    (hk : ∀ t v, Tracks s (s.withUnread f c p o) t v →
      TrackWorking s (s.withUnread f c p o) (k t) (k' v)) :
    TrackWorking s (s.withUnread f c p o) (popInto i x s >>= k)
      (popInto i x (s.withUnread f c p o) >>= k') := by
  obtain ⟨hsp, e⟩ | ⟨hc, hsp, e⟩ := popInto_cases s i x
  · rw [e, popInto_ok (s := s.withUnread f c p o) hsp]
    exact hk _ _ ((tracks_start.setReg _ _).setReg _ _)
  · rw [e, popInto_error (s := s.withUnread f c p o) hc hsp]
    exact .error _

theorem track_branchIf (taken : Bool) (a : Byte) :
    TrackNext s (s.withUnread f c p o) (branchIf taken a s) (branchIf taken a (s.withUnread f c p o)) := by
  refine .commit tracks_start (.bind fun _ => .bind fun i => ?_)
  cases taken with
  | true => exact .ok (tracks_start.setPc _)
  | false => exact track_advance tracks_start

theorem track_execAlu (op : Byte → Byte → Byte) (a b : Byte) :
    TrackNext s (s.withUnread f c p o) (execAlu op a b s) (execAlu op a b (s.withUnread f c p o)) :=
  .commit tracks_start (.bind fun _ => .bind fun _ => .bind fun _ =>
    track_advance (tracks_start.setReg _ _))

/-- No instruction reads FAULT_CAUSE, FAULT_PC, OUT or any bit of FL but FL[0] (R28, R32, R33, R38). -/
theorem track_exec (i : Instr) (hf : f.getLsbD 0 = s.fl.getLsbD 0) :
    TrackNext s (s.withUnread f c p o) (exec i s) (exec i (s.withUnread f c p o)) := by
  have hE : (s.withUnread f c p o).flagE = s.flagE := hf
  cases i with
  | hlt => exact .commit tracks_start (.ok (tracks_start.setRunState _))
  | prn a => exact .commit tracks_start (.bind fun _ => .bind fun _ => track_advance (tracks_start.emit _))
  | ldi a imm =>
    exact .commit tracks_start (.bind fun _ => .bind fun _ => track_advance (tracks_start.setReg _ _))
  | push a =>
    exact .commit tracks_start (.bind fun _ => .bind fun _ => .bind fun _ =>
      track_advance ((tracks_start.setReg _ _).writeByte _ _))
  | pop a =>
    exact .commit tracks_start (.bind fun _ => .bind fun _ => track_popInto fun _ _ h => track_advance h)
  | mul a b => exact track_execAlu mulBytes a b
  | add a b => exact track_execAlu addBytes a b
  | cmp a b =>
    exact .commit tracks_start (.bind fun _ => .bind fun _ => .bind fun _ =>
      track_advance ((tracks_start.setFl _).emit _))
  | call a =>
    exact .commit tracks_start (.bind fun _ => .bind fun _ => .bind fun _ => .bind fun _ =>
      .ok (((tracks_start.setReg _ _).writeByte _ _).setPc _))
  | ret =>
    exact .commit tracks_start (.bind fun _ => .bind fun _ => track_popInto fun _ _ h => .ok (h.setPc _))
  | jeq a =>
    rw [exec, exec, execJeq, execJeq, hE]
    exact track_branchIf _ a
  | jne a =>
    rw [exec, exec, execJne, execJne, hE]
    exact track_branchIf _ a
  | jmp a => exact track_branchIf true a

/-- No step does (R28, R32, R33, R38). -/
theorem track_step (hf : f.getLsbD 0 = s.fl.getLsbD 0) :
    TrackNext s (s.withUnread f c p o) (step s) (step (s.withUnread f c p o)) := by
  have hfetch : fetchDecode (s.withUnread f c p o) = fetchDecode s := rfl
  unfold step
  rw [hfetch]
  cases fetchDecode s with
  | nothing => exact ⟨_, _, rfl, rfl, tracks_start⟩
  | unknown op => exact ⟨_, _, rfl, rfl, tracks_start.unknownHalt op⟩
  | rangeFault r => exact ⟨_, _, rfl, rfl, tracks_start.takeFault r⟩
  | run i => exact track_exec i hf

end

end Sys2Proof.Machine

namespace Sys2Proof.Stated

open Sys2Proof.Machine

/-- Settles O29: `track_exec` with the other three fields as they were, so that the two runs write the same there. -/
theorem onlyBitZeroOfFlagsIsRead : Obligations.OnlyBitZeroOfFlagsIsRead := by
  intro i s f hf
  obtain ⟨t, v, ht, hv, hrest, hfl, hcause, hpc, new, hto, hvo⟩ :=
    track_exec (c := s.faultCause) (p := s.faultPc) (o := s.out) i hf
  have ecause : v.faultCause = t.faultCause := hcause.elim id fun ⟨h, h'⟩ => h.trans h'.symm
  have epc : v.faultPc = t.faultPc := hpc.elim id fun ⟨h, h'⟩ => h.trans h'.symm
  have eout : v.out = t.out := hvo.trans hto.symm
  refine ⟨t, v, ht, hv, ?_, hfl⟩
  rw [hrest, ecause, epc, eout]
  rfl

/-- Settles O33: `track_step` with FL as it was, so that the two runs write the same there. -/
theorem statusAndOutputAreUnread : Obligations.StatusAndOutputAreUnread := by
  intro s c p o _
  obtain ⟨t, v, ht, hv, hrest, hfl, -, -, new, hto, hvo⟩ :=
    track_step (s := s) (f := s.fl) (c := c) (p := p) (o := o) rfl
  have efl : v.fl = t.fl := hfl.elim id fun ⟨h, h'⟩ => h.trans h'.symm
  refine ⟨t, v, new, ht, hv, ?_, ?_, efl, ?_, ?_, hto, hvo⟩ <;> rw [hrest] <;> rfl

end Sys2Proof.Stated
end

section
/-! Canonical memories (log entry 5): each is given by what it reads. -/

namespace Sys2Proof.Machine

/-- The byte of a number that fits is that number. -/
theorem byte_toNat_ofNat {n : Nat} (h : n < 256) : (BitVec.ofNat 8 n : Byte).toNat = n :=
  Nat.mod_eq_of_lt h

theorem Memory.wfFrom_cons_iff {lo a : Nat} {v : Byte} {m : Memory} :
    Memory.wfFrom lo ((a, v) :: m) = true ↔
      lo ≤ a ∧ a < 256 ∧ v ≠ Memory.unlisted ∧ Memory.wfFrom (a + 1) m = true := by
  simp [Memory.wfFrom, and_assoc]

theorem Memory.lookup_cons_self (a : Nat) (v : Byte) (m : Memory) :
    Memory.lookup ((a, v) :: m) a = v := if_pos rfl

theorem Memory.lookup_cons_ne {a b : Nat} (v : Byte) (m : Memory) (h : a ≠ b) :
    Memory.lookup ((b, v) :: m) a = Memory.lookup m a := if_neg h

/-- A canonical memory lists nothing below its start. -/
theorem Memory.lookup_of_lt {lo a : Nat} {m : Memory} (h : Memory.wfFrom lo m = true) (ha : a < lo) :
    Memory.lookup m a = Memory.unlisted := by
  induction m generalizing lo with
  | nil => rfl
  | cons c m ih =>
    obtain ⟨k, v⟩ := c
    obtain ⟨hlo, -, -, hm⟩ := Memory.wfFrom_cons_iff.mp h
    rw [Memory.lookup_cons_ne v m (by omega)]
    exact ih hm (by omega)

/-- A canonical memory that starts above an address reads otherwise there than one that lists it first. -/
theorem Memory.lookup_head_ne {lo lo' a : Nat} {v : Byte} {m m' : Memory}
    (h : Memory.wfFrom lo ((a, v) :: m) = true) (h' : Memory.wfFrom lo' m' = true) (ha : a < lo') :
    Memory.lookup ((a, v) :: m) a ≠ Memory.lookup m' a := by
  obtain ⟨-, -, hv, -⟩ := Memory.wfFrom_cons_iff.mp h
  rwa [Memory.lookup_cons_self, Memory.lookup_of_lt h' ha]

/-- Canonical memories that read alike at every address are equal. -/
theorem Memory.eq_of_lookup_eq {lo : Nat} {m m' : Memory} (h : Memory.wfFrom lo m = true)
    (h' : Memory.wfFrom lo m' = true)
    (hl : ∀ a < 256, Memory.lookup m a = Memory.lookup m' a) : m = m' := by
  induction m generalizing lo m' with
  | nil =>
    match m' with
    | [] => rfl
    | (b, w) :: m' =>
      obtain ⟨-, hb, -, -⟩ := Memory.wfFrom_cons_iff.mp h'
      exact absurd (hl b hb).symm (Memory.lookup_head_ne (lo' := b + 1) h' rfl (by omega))
  | cons c m ih =>
    obtain ⟨a, v⟩ := c
    obtain ⟨hlo, ha, hv, hm⟩ := Memory.wfFrom_cons_iff.mp h
    match m' with
    | [] => exact absurd (hl a ha) (Memory.lookup_head_ne (lo' := a + 1) h rfl (by omega))
    | (b, w) :: m' =>
      obtain ⟨hlo', hb, hw, hm'⟩ := Memory.wfFrom_cons_iff.mp h'
      obtain hab | rfl | hab := Nat.lt_trichotomy a b
      · have h'b : Memory.wfFrom b ((b, w) :: m') = true :=
          Memory.wfFrom_cons_iff.mpr ⟨Nat.le_refl b, hb, hw, hm'⟩
        exact absurd (hl a ha) (Memory.lookup_head_ne h h'b hab)
      · have hvw : v = w := by
          simpa only [Memory.lookup_cons_self] using hl a ha
        have htail : ∀ x < 256, Memory.lookup m x = Memory.lookup m' x := fun x hx => by
          by_cases hxa : x = a
          · rw [hxa, Memory.lookup_of_lt hm (Nat.lt_succ_self a), Memory.lookup_of_lt hm' (Nat.lt_succ_self a)]
          · simpa only [Memory.lookup_cons_ne _ _ hxa] using hl x hx
        rw [hvw, ih hm hm' htail]
      · have hb' : Memory.wfFrom a ((a, v) :: m) = true :=
          Memory.wfFrom_cons_iff.mpr ⟨Nat.le_refl a, ha, hv, hm⟩
        exact absurd (hl b hb).symm (Memory.lookup_head_ne h' hb' hab)

end Sys2Proof.Machine

namespace Sys2Proof.Stated

open Sys2Proof.Machine

/-- Settles O48: every address below 256 is that of a byte, so `Memory.eq_of_lookup_eq` applies. -/
theorem memoryFormIsUnique : Obligations.MemoryFormIsUnique := by
  intro m m' h h' hread
  refine Memory.eq_of_lookup_eq h h' fun a ha => ?_
  have hab : (BitVec.ofNat 8 a).toNat = a := byte_toNat_ofNat ha
  simpa only [Memory.read, hab] using hread (BitVec.ofNat 8 a)

end Sys2Proof.Stated
end

section
/-! The host's transactions (10_state.md R35, R39 to R44; 70_reset_and_hazards.md R180). -/

namespace Sys2Proof.Machine

/-- A step outside RUNNING has no effect (R42). -/
theorem step_not_running {s : State} (h : s.runState ≠ .running) : step s = .next s := by
  rw [step, fetchDecode_not_running h]

/-- So has any number of them. -/
theorem run_not_running {s : State} (h : s.runState ≠ .running) (k : Nat) :
    Sys2Proof.core.run k s = .next s := by
  induction k with
  | zero => rfl
  | succ k ih => exact (run_succ k (step_not_running h)).trans ih

/-- A load outside IDLE has no effect (R39). -/
theorem hostLoad_not_idle {s : State} (h : s.runState ≠ .idle) (addr byte : Byte) :
    hostLoad addr byte s = s := by
  unfold hostLoad
  split
  · contradiction
  all_goals rfl

/-- A run outside IDLE has no effect (R39). -/
theorem hostRun_not_idle {s : State} (h : s.runState ≠ .idle) : hostRun s = s := by
  unfold hostRun
  split
  · contradiction
  all_goals rfl

/-- A load while IDLE writes its byte (R39). -/
theorem hostLoad_idle {s : State} (h : s.runState = .idle) (addr byte : Byte) :
    hostLoad addr byte s = s.writeByte addr byte := by
  simp only [hostLoad, h]

/-- A run while IDLE writes RUN_STATE alone (R41). -/
theorem hostRun_idle {s : State} (h : s.runState = .idle) : hostRun s = s.setRunState .running := by
  simp only [hostRun, h]

theorem RunState.terminal_iff (r : RunState) :
    r.terminal = true ↔ r = .halted ∨ r = .haltedUnknown ∨ r = .faulted := by
  cases r <;> decide

theorem RunState.ne_running_of_terminal {r : RunState} (h : r.terminal = true) : r ≠ .running := by
  rintro rfl
  cases h

theorem RunState.ne_idle_of_terminal {r : RunState} (h : r.terminal = true) : r ≠ .idle := by
  rintro rfl
  cases h

/-- Of all transactions reset alone has an effect on a terminal state (R35, R180). -/
theorem transact_terminal {s : State} (h : s.runState.terminal = true) {tx : Transaction}
    (htx : tx ≠ .reset) : transact tx s = .next s := by
  have hidle := RunState.ne_idle_of_terminal h
  cases tx with
  | reset => exact absurd rfl htx
  | step => exact step_not_running (RunState.ne_running_of_terminal h)
  | load a v => exact congrArg _ (hostLoad_not_idle hidle a v)
  | run => exact congrArg _ (hostRun_not_idle hidle)
  | readMem _ | readState | readOut => rfl

/-- A reset puts SP_INIT in R7 (R44). -/
theorem State.resetWith_sp (cfg : Config) : (State.resetWith cfg).sp = spInit := Vector.getElem_push_eq

/-! ### Loading an image -/

/-- Loads while IDLE change memory alone. -/
theorem loadFrom_eq {s : State} (hs : s.runState = .idle) (k : Nat) (image : List Byte) :
    loadFrom s k image = { s with mem := (loadFrom s k image).mem } := by
  induction image generalizing s k with
  | nil => rfl
  | cons b bs ih => rw [loadFrom, hostLoad_idle hs]; exact ih (s := s.writeByte _ b) hs (k + 1)

/-- After loads from address k on, a cell holds its byte of the image, or what it held before. -/
theorem readByte_loadFrom {s : State} (hs : s.runState = .idle) {k : Nat} {image : List Byte}
    (hk : k + image.length ≤ 256) (x : Byte) :
    (loadFrom s k image).readByte x =
      if k ≤ x.toNat then image[x.toNat - k]?.getD (s.readByte x) else s.readByte x := by
  induction image generalizing s k with
  | nil => simp [loadFrom]
  | cons b bs ih =>
    rw [List.length_cons] at hk
    have hx : x = BitVec.ofNat 8 k ↔ x.toNat = k := by
      rw [← BitVec.toNat_inj, byte_toNat_ofNat (by omega)]
    rw [loadFrom, hostLoad_idle hs, ih (s := s.writeByte _ b) hs (by omega), State.readByte_writeByte]
    obtain hlt | heq | hgt := Nat.lt_trichotomy x.toNat k
    · simp [hx, Nat.not_le.mpr hlt, Nat.not_le.mpr (Nat.lt_succ_of_lt hlt), Nat.ne_of_lt hlt]
    · simp [hx, heq]
    · have hsub : x.toNat - k = x.toNat - (k + 1) + 1 := by omega
      simp [hx, Nat.ne_of_gt hgt, Nat.succ_le_of_lt hgt, Nat.le_of_lt hgt, hsub]

/-- An image that fits is loaded by successive loads from address 0 (R40). -/
theorem loadImage_of_le {image : List Byte} (s : State) (h : image.length ≤ 256) :
    loadImage image s = some (loadFrom s 0 image) := if_pos h

theorem loadImage_of_lt {image : List Byte} (s : State) (h : 256 < image.length) :
    loadImage image s = none := if_neg (Nat.not_le.mpr h)

/-- An image that was loaded while IDLE changed memory alone. -/
theorem eq_of_loadImage {image : List Byte} {s t : State} (hs : s.runState = .idle)
    (h : loadImage image s = some t) : t = { s with mem := t.mem } := by
  obtain hle | hlt := le_or_gt image.length 256
  · rw [loadImage_of_le s hle] at h
    cases h
    exact loadFrom_eq hs 0 image
  · rw [loadImage_of_lt s hlt] at h
    cases h

end Sys2Proof.Machine

namespace Sys2Proof.Stated

open Sys2Proof.Machine

/-- Settles O23: a fetch outside RUNNING finds nothing. -/
theorem stepOutsideRunning : Obligations.StepOutsideRunning := fun _ => step_not_running

/-- Settles O34: the steps by induction (`run_not_running`), the transactions by `transact_terminal`. -/
theorem terminalLeftOnlyByReset : Obligations.TerminalLeftOnlyByReset :=
  ⟨RunState.terminal_iff, fun _ hs => ⟨run_not_running (RunState.ne_running_of_terminal hs),
    fun _ => transact_terminal hs, _, rfl, rfl⟩⟩

/-- Settles O35: by induction on the image (`readByte_loadFrom`, `loadFrom_eq`). -/
theorem loadContract : Obligations.LoadContract := by
  intro image s hs
  refine ⟨loadImage_of_lt s, fun hle => ⟨_, loadImage_of_le s hle, fun k hk => ?_, fun x hx => ?_,
    loadFrom_eq hs 0 image⟩⟩
  · rw [readByte_loadFrom hs (by omega), byte_toNat_ofNat (by omega)]
    simp [hk]
  · rw [readByte_loadFrom hs (by omega)]
    simp [hx]

/-- Settles O36: a load leaves pc and SP as the reset wrote them (`eq_of_loadImage`). -/
theorem runTransaction : Obligations.RunTransaction := by
  refine ⟨fun s hs => congrArg _ (hostRun_idle hs), fun cfg image s h => ?_⟩
  rw [eq_of_loadImage rfl h]
  exact ⟨_, rfl, rfl, rfl, State.resetWith_sp cfg⟩

/-- Settles O37: INIT_REGS are read by `resetWith_reg`; the way out of a terminal state by `transact_terminal`. -/
theorem resetValues : Obligations.ResetValues := by
  refine ⟨fun s t tx hs h hne => ?_, fun s => ⟨_, rfl, fun r hr => State.resetWith_reg s.cfg _ hr,
    State.resetWith_sp s.cfg, rfl, rfl, fun _ => rfl, rfl, rfl, rfl, rfl, rfl, rfl, rfl⟩⟩
  by_contra htx
  rw [transact_terminal hs htx] at h
  cases h
  exact hne rfl

/-- Settles O39: the reads' window is open, and a read is no write. -/
theorem hostReads : Obligations.HostReads :=
  fun _ hs => ⟨fun _ => ⟨if_neg hs, rfl⟩, if_neg hs, rfl⟩

/-- Settles O40: load and run test for IDLE, the reads for RUNNING, and OUT is answered whole. -/
theorem transactionsOutsideTheirWindow : Obligations.TransactionsOutsideTheirWindow :=
  ⟨fun _ x v hs => ⟨congrArg _ (hostLoad_not_idle hs x v), congrArg _ (hostRun_not_idle hs)⟩,
    fun _ _ hs => ⟨if_pos hs, if_pos hs⟩, fun _ => ⟨rfl, rfl⟩⟩

end Sys2Proof.Stated
end

section
/-! Memory (20_memory.md): the one byte that PUSH and CALL store (R51), seen by the very next fetch (R61). -/

namespace Sys2Proof.Machine

open Sys2Proof.Stated

/-- PUSH and CALL leave SP at the cell they store to (42_load_store.md R121, 44_subroutine.md R140). -/
theorem Commits.sp_eq_of_push_or_call {s t : State} {i : Instr} {a : Byte} (h : Commits s i t)
    (hi : i = .push a ∨ i = .call a) : t.sp = s.sp - 1 := by
  obtain rfl | rfl := hi <;> cases h <;> exact State.sp_setReg_spIdx s (s.sp - 1)

/-- Only PUSH and CALL commit a memory with another byte in it, and only in the cell SP then points to (R51). -/
theorem Commits.eq_of_readByte_ne {s t : State} {i : Instr} {x : Byte} (h : Commits s i t)
    (hx : t.readByte x ≠ s.readByte x) :
    x = s.sp - 1 ∧ t.sp = x ∧ ∃ a, i = .push a ∨ i = .call a := by
  have hxsp : x = s.sp - 1 := Classical.not_not.mp (mt h.readByte_eq_of_ne hx)
  obtain hm | ⟨⟨a, hi⟩, -⟩ := h.mem_cases
  · exact absurd (congrArg (Memory.read · x) hm) hx
  · exact ⟨hxsp, hxsp ▸ h.sp_eq_of_push_or_call hi, a, hi⟩

/-- Memory after PUSH or CALL: the stored byte at SP - 1, and every other byte from before (R121, R140). -/
theorem Commits.readByte_of_stores {s t : State} {i : Instr} {v : Byte} (h : Commits s i t)
    (hv : Stores s (s.sp - 1) i v) (x : Byte) :
    t.readByte x = if x = s.sp - 1 then v else s.readByte x := by
  cases hv with
  | push a =>
    cases h
    simp only [State.setPc_readByte, State.readByte_writeByte, State.reg_setReg, State.setReg_readByte, spIdx]
  | call a =>
    cases h
    simp only [State.setPc_readByte, State.readByte_writeByte, State.setReg_readByte]

/-- The opcode fetched next is the byte memory holds at pc (40_dispatch.md R91). -/
theorem fetchBytes_head? (s : State) : (fetchBytes s).head? = some (s.readByte s.pc) := rfl

/-- After a PUSH or CALL whose cell is where pc then stands, the opcode fetched next is the byte just stored (R61). -/
theorem Commits.fetchBytes_head?_of_stores {s t : State} {i : Instr} {v : Byte} (h : Commits s i t)
    (hv : Stores s (s.sp - 1) i v) (hpc : t.pc = s.sp - 1) : (fetchBytes t).head? = some v := by
  rw [fetchBytes_head?, h.readByte_of_stores hv, if_pos hpc]

/-- PUSH goes on to the next instruction (R121). -/
theorem Commits.pc_eq_of_push {s t : State} {a : Byte} (h : Commits s (.push a) t) : t.pc = s.pc + 2 := by
  cases h; rfl

/-- CALL R7 jumps to the cell it has just stored to: its target is read after SP moves (R140, D17). -/
theorem Commits.pc_eq_of_call_sp {s t : State} {a : Byte} (h : Commits s (.call a) t)
    (ha : regOf a = spIdx) : t.pc = s.sp - 1 := by
  cases h; simp [ha]

end Sys2Proof.Machine

namespace Sys2Proof.Stated

open Sys2Proof.Machine

/-- Settles O30: no stop stores, and of what can commit only PUSH and CALL do (`Commits.eq_of_readByte_ne`). -/
theorem onlyPushAndCallWriteMemory : Obligations.OnlyPushAndCallWriteMemory := by
  intro s t x h hx
  obtain ⟨-, rfl⟩ | ⟨-, ⟨b, -, rfl⟩ | ⟨-, rfl⟩ | ⟨i, rest, hd, hexec⟩⟩ := step_cases h
  · exact absurd rfl hx
  · exact absurd (unknownHalt_readByte b s x) hx
  · exact absurd (takeFault_readByte .pcRange s x) hx
  obtain hc | ⟨-, c, rfl⟩ := exec_cases hexec
  · obtain ⟨hxsp, hsp, a, rfl | rfl⟩ := hc.eq_of_readByte_ne hx
    · exact ⟨hxsp, hsp, a, rest, .inl hd⟩
    · exact ⟨hxsp, hsp, a, rest, .inr hd⟩
  · exact absurd (takeFault_readByte c s x) hx

/-- Settles O54: a fetch reads memory as it stands (`fetchBytes_getElem?`), and memory after the store is
`Commits.readByte_of_stores`. -/
theorem storeSeenByNextFetch : Obligations.StoreSeenByNextFetch := by
  refine ⟨?_, ?_, ?_⟩
  · intro i s t addr v _ h ht haddr hv k hk hreach
    obtain rfl := eq_sub_one_of_spdec haddr
    rw [fetchBytes_getElem? hk hreach, (commits_of_exec_running h ht).readByte_of_stores hv]
  · intro a s t _ ha h ht
    have hc := commits_of_exec_running h ht
    exact hc.fetchBytes_head?_of_stores (.call a) (hc.pc_eq_of_call_sp ha)
  · intro a s t _ h ht hcell
    have hc := commits_of_exec_running h ht
    exact hc.fetchBytes_head?_of_stores (.push a) (hc.pc_eq_of_push.trans hcell.symm)

end Sys2Proof.Stated
end

section
/-! Encoding (30_encoding.md): the map's rows (R73, R76 to R78), decode against encode (R70, R71, R79), and the step that
runs the bytes at pc (40_dispatch.md R90, R93). -/

namespace Sys2Proof

/-! ### The rows of an OPCODE_MAP -/

theorem Mnemonic.mem_all (k : Mnemonic) : k ∈ Mnemonic.all := by cases k <;> decide

/-- No instruction has more than two operand bytes (R70). -/
theorem Mnemonic.operandCount_le_two (k : Mnemonic) : k.operandCount ≤ 2 := by cases k <;> decide

/-- A byte is unknown iff no row has it, for every map (R76). -/
theorem OpcodeMap.lookup_eq_none_iff {map : OpcodeMap} {b : Byte} :
    map.lookup b = none ↔ ∀ k, map.byte k ≠ b := by
  simp [OpcodeMap.lookup, Mnemonic.mem_all]

/-- The row found for a byte has that byte, for every map (R79). -/
theorem OpcodeMap.byte_of_lookup {map : OpcodeMap} {b : Byte} {k : Mnemonic} (h : map.lookup b = some k) :
    map.byte k = b :=
  of_decide_eq_true (List.find?_some (p := fun k => decide (map.byte k = b)) h)

/-- Constraint 1 of R77. -/
theorem OpcodeMap.byte_injective {map : OpcodeMap} (h : map.wf = true) : Function.Injective map.byte := by
  simp only [OpcodeMap.wf, OpcodeMap.injective, Bool.and_eq_true, decide_eq_true_eq] at h
  obtain ⟨⟨hnodup, -⟩, -⟩ := h
  exact fun k k' => List.inj_on_of_nodup_map hnodup k.mem_all k'.mem_all

/-- Constraint 3 of R77, with bits 7:6 as a quotient. -/
theorem OpcodeMap.byte_toNat_div {map : OpcodeMap} (h : map.wf = true) (k : Mnemonic) :
    (map.byte k).toNat / 64 = k.operandCount := by
  simp only [OpcodeMap.wf, OpcodeMap.countsInTopBits, Bool.and_eq_true, List.all_eq_true,
    decide_eq_true_eq] at h
  obtain ⟨⟨-, hcount⟩, -⟩ := h
  have htop := hcount k k.mem_all
  rw [BitVec.extractLsb'_toNat, Nat.shiftRight_eq_div_pow] at htop
  omega

/-- Under a map that meets R77 each row is found by its own byte. -/
theorem OpcodeMap.lookup_byte {map : OpcodeMap} (h : map.wf = true) (k : Mnemonic) :
    map.lookup (map.byte k) = some k := by
  cases hk : map.lookup (map.byte k) with
  | none => exact absurd rfl (OpcodeMap.lookup_eq_none_iff.mp hk k)
  | some k' => rw [OpcodeMap.byte_injective h (OpcodeMap.byte_of_lookup hk)]

/-- The known bytes are the thirteen rows' bytes, which a map that meets R77 has distinct, so 243 of the 256 are
unknown (R76). -/
theorem OpcodeMap.count_unknown {map : OpcodeMap} (h : map.wf = true) :
    ((List.range 256).filter fun n => (map.lookup (BitVec.ofNat 8 n)).isNone).length = 243 := by
  have hinj : Function.Injective fun k => (map.byte k).toNat :=
    BitVec.toNat_injective.comp (OpcodeMap.byte_injective h)
  have hknown : ((List.range 256).filter fun n => !(map.lookup (BitVec.ofNat 8 n)).isNone).Perm
      (Mnemonic.all.map fun k => (map.byte k).toNat) := by
    refine (List.perm_ext_iff_of_nodup (List.nodup_range.filter _) (.map hinj (by decide))).mpr fun n => ?_
    simp only [List.mem_filter, List.mem_range, List.mem_map, Bool.not_eq_true', Option.isNone_eq_false_iff]
    constructor
    · rintro ⟨hn, hsome⟩
      obtain ⟨k, hk⟩ := Option.isSome_iff_exists.mp hsome
      exact ⟨k, k.mem_all, by rw [OpcodeMap.byte_of_lookup hk, BitVec.toNat_ofNat, Nat.mod_eq_of_lt hn]⟩
    · rintro ⟨k, -, rfl⟩
      rw [BitVec.ofNat_toNat, BitVec.setWidth_eq, OpcodeMap.lookup_byte h]
      exact ⟨(map.byte k).isLt, rfl⟩
  have hsplit := List.length_eq_length_filter_add (l := List.range 256)
    fun n => (map.lookup (BitVec.ofNat 8 n)).isNone
  rw [hknown.length_eq, List.length_range, List.length_map] at hsplit
  have hrows : Mnemonic.all.length = 13 := rfl
  omega

/-! ### Decode against encode -/

theorem Instr.operands_length (i : Instr) : i.operands.length = i.mnemonic.operandCount := by cases i <;> rfl

/-- The encoded length is that of the row (R70). -/
theorem encode_length (map : OpcodeMap) (i : Instr) : (encode map i).length = i.mnemonic.length := by
  rw [encode, List.length_cons, i.operands_length, Mnemonic.length, Nat.add_comm]

theorem decode_cons_of_lookup {map : OpcodeMap} {op : Byte} {k : Mnemonic} (h : map.lookup op = some k)
    (bytes : List Byte) : decode map (op :: bytes) = decodeOperands k bytes := by
  simp only [decode, h]

theorem decode_cons_of_lookup_none {map : OpcodeMap} {op : Byte} (h : map.lookup op = none)
    (bytes : List Byte) : decode map (op :: bytes) = .error (.unknownOpcode op) := by
  simp only [decode, h]

/-- The operand bytes of an instruction give it back in its row, whatever follows (R71). -/
theorem decodeOperands_operands (i : Instr) (rest : List Byte) :
    decodeOperands i.mnemonic (i.operands ++ rest) = .ok (i, rest) := by cases i <;> rfl

theorem take1_eq_ok {mk : Byte → Instr} {bytes rest : List Byte} {i : Instr}
    (h : take1 mk bytes = .ok (i, rest)) : ∃ a, i = mk a ∧ bytes = a :: rest := by
  match bytes, h with
  | a :: _, rfl => exact ⟨a, rfl, rfl⟩

theorem take2_eq_ok {mk : Byte → Byte → Instr} {bytes rest : List Byte} {i : Instr}
    (h : take2 mk bytes = .ok (i, rest)) : ∃ a b, i = mk a b ∧ bytes = a :: b :: rest := by
  match bytes, h with
  | a :: b :: _, rfl => exact ⟨a, b, rfl, rfl⟩

/-- What the bytes after an opcode decode to is of its row, and its operands are what was taken (R71). -/
theorem decodeOperands_eq_ok {k : Mnemonic} {bytes rest : List Byte} {i : Instr}
    (h : decodeOperands k bytes = .ok (i, rest)) : i.mnemonic = k ∧ bytes = i.operands ++ rest := by
  cases k with
  | hlt | ret => cases h; exact ⟨rfl, rfl⟩
  | ldi | mul | add | cmp => obtain ⟨a, b, rfl, rfl⟩ := take2_eq_ok h; exact ⟨rfl, rfl⟩
  | prn | push | pop | call | jeq | jne | jmp => obtain ⟨a, rfl, rfl⟩ := take1_eq_ok h; exact ⟨rfl, rfl⟩

/-- R79 on the bytes of R71: the row is found by its byte, and the operands come back in order. -/
theorem decode_encode {map : OpcodeMap} (h : map.wf = true) (i : Instr) (rest : List Byte) :
    decode map (encode map i ++ rest) = .ok (i, rest) :=
  (decode_cons_of_lookup (OpcodeMap.lookup_byte h i.mnemonic) _).trans (decodeOperands_operands i rest)

/-- Bytes that decode are the encoding of what they decode to, under every map. -/
theorem eq_encode_of_decode {map : OpcodeMap} {bytes rest : List Byte} {i : Instr}
    (h : decode map bytes = .ok (i, rest)) : bytes = encode map i ++ rest := by
  cases bytes with
  | nil => cases h
  | cons op bytes =>
    have hrow : map.lookup op = some i.mnemonic := Machine.lookup_of_decode_ok h
    rw [decode_cons_of_lookup hrow] at h
    rw [encode, OpcodeMap.byte_of_lookup hrow, (decodeOperands_eq_ok h).2, List.cons_append]

end Sys2Proof

namespace Sys2Proof.Machine

open Sys2Proof.Stated

/-! ### The step on the bytes at pc -/

/-- While RUNNING the decoded instruction is all a step runs (R90, R100). -/
theorem step_of_decode_ok {s : State} {i : Instr} {rest : List Byte} (hr : s.runState = .running)
    (hd : decode s.cfg.opcodeMap (fetchBytes s) = .ok (i, rest)) : step s = exec i s := by
  rw [step, fetchDecode_running hr, hd]

/-- While RUNNING an opcode that no row has is the unknown-instruction halt (R92, R163). -/
theorem step_of_lookup_none {s : State} (hr : s.runState = .running)
    (hk : s.cfg.opcodeMap.lookup (s.readByte s.pc) = none) :
    step s = .next (unknownHalt (s.readByte s.pc) s) := by
  rw [step, fetchDecode_running hr, fetchBytes_eq, decode_cons_of_lookup_none hk]

/-- An encoding that stands at pc, within reach, is the start of what a step fetches (R91, R93). -/
theorem encode_prefix_fetchBytes {s : State} {i : Instr} (hreach : reaches s i.operands.length)
    (hstands : standsAtPc s i) : encode s.cfg.opcodeMap i <+: fetchBytes s := by
  rw [List.prefix_iff_getElem?]
  intro k hk
  have hlast : k ≤ i.operands.length := Nat.le_of_lt_succ hk
  have hcount := i.operands_length ▸ i.mnemonic.operandCount_le_two
  rw [← hstands k hk]
  exact fetchBytes_getElem? (by rw [maxLength]; omega) fun hc => by have := hreach hc; omega

end Sys2Proof.Machine

namespace Sys2Proof.Stated

open Sys2Proof.Machine

/-- Settles O44: `decode_encode`, from the rows' bytes being distinct. -/
theorem decodeOfEncode : Obligations.DecodeOfEncode := fun _ i rest h => decode_encode h i rest

/-- Settles O20: the fetch begins with the encoding (`encode_prefix_fetchBytes`), which decodes to `i`. -/
theorem stepRunsEncodedBytes : Obligations.StepRunsEncodedBytes := by
  intro s i hr hwf hreach hstands
  obtain ⟨rest, hfetch⟩ := encode_prefix_fetchBytes hreach hstands
  exact step_of_decode_ok hr (hfetch ▸ decode_encode hwf i rest)

/-- Settles O43: a known byte is its row's, whose quotient by 64 is an operand count, and no count is 3. -/
theorem topBitsCountOperands : Obligations.TopBitsCountOperands := by
  refine fun map b hwf => ⟨fun k hk => OpcodeMap.byte_of_lookup hk ▸ OpcodeMap.byte_toNat_div hwf k,
    fun hb => OpcodeMap.lookup_eq_none_iff.mpr ?_⟩
  rintro k rfl
  have htop := OpcodeMap.byte_toNat_div hwf k
  have hcount := k.operandCount_le_two
  omega

/-- Settles O45, by `eq_encode_of_decode`. -/
theorem encodeOfDecode : Obligations.EncodeOfDecode :=
  fun map _ _ i h => ⟨eq_encode_of_decode h, encode_length map i⟩

/-- Settles O41, by evaluating the thirteen rows. -/
theorem defaultOpcodeTable : Obligations.DefaultOpcodeTable := ⟨by decide, rfl⟩

/-- Settles O42: `OpcodeMap.lookup_eq_none_iff` for every map, the count of a map that meets R77, and the halt at such
a byte. -/
theorem unknownBytes : Obligations.UnknownBytes :=
  ⟨fun _ _ => OpcodeMap.lookup_eq_none_iff, OpcodeMap.count_unknown (by decide), fun s hr hk =>
    ⟨_, step_of_lookup_none hr (OpcodeMap.lookup_eq_none_iff.mpr hk), unknownHalt_runState (s.readByte s.pc) s⟩⟩

/-- Settles O46, by running the decoder on the seven words. -/
theorem wordsDecodeAsTheTableSays : Obligations.WordsDecodeAsTheTableSays :=
  ⟨rfl, rfl, rfl, rfl, rfl, rfl, rfl⟩

end Sys2Proof.Stated
end

section
/-! Dispatch (40_dispatch.md): the operand fetch that ends at address 255 (R93, R101), a word placed for the next step
(R90; 10_state.md R40, R41), and the run that stands at a jump to itself (R103). -/

namespace Sys2Proof

/-! ### Bytes that are too few, and the bytes of a table word -/

/-- Fewer bytes than a row has operands end the decode early: what a decode answers has all its operands (R71). -/
theorem decodeOperands_of_short {k : Mnemonic} {bytes : List Byte} (h : bytes.length < k.operandCount) :
    decodeOperands k bytes = .error .truncated := by
  obtain ⟨i, rest, hd, rfl⟩ | hd := Machine.decodeOperands_cases k bytes
  · have hlen := congrArg List.length (decodeOperands_eq_ok hd).2
    rw [List.length_append, i.operands_length] at hlen
    omega
  · exact hd

theorem bytesOf_length (n w : Nat) : (bytesOf n w).length = n := by
  induction n generalizing w with
  | zero => rfl
  | succ n ih => rw [bytesOf, List.length_cons, ih]

theorem tableBytes_length (nbits w : Nat) : (tableBytes nbits w).length = maxLength := bytesOf_length _ _

/-- A word that decodes has the encoding of its instruction as its first bytes. -/
theorem encode_prefix_tableBytes {nbits w : Nat} {i : Instr} (h : decodeTableWord nbits w = some i) :
    encode OpcodeMap.default i <+: tableBytes nbits w := by
  unfold decodeTableWord at h
  split at h
  · next j rest hd =>
    cases h
    exact ⟨rest, (eq_encode_of_decode hd).symm⟩
  · cases h

end Sys2Proof

namespace Sys2Proof.Machine

open Sys2Proof.Stated

/-! ### The operand fetch past address 255 -/

/-- With CHECKED the bytes read from k bytes after pc on end at address 255 (R93, R94). -/
theorem bytesFrom_length_le {s : State} (hc : s.cfg.bounds = .checked) (n : Nat) {k : Nat}
    (hk : s.pc.toNat + k ≤ 256) : s.pc.toNat + k + (bytesFrom s n k).length ≤ 256 := by
  induction n generalizing k with
  | zero => exact hk
  | succ n ih =>
    rw [bytesFrom]
    obtain ⟨hle, e⟩ | ⟨-, -, e⟩ := seq_cases s.cfg.bounds s.pc k <;> rw [e]
    · have hrest := ih (k := k + 1) (by have := hle hc; omega)
      rw [List.length_cons]
      omega
    · exact hk

/-- With CHECKED a known opcode whose operands run past address 255 leaves the decoder short of bytes (R93). -/
theorem decode_fetchBytes_truncated {s : State} {k : Mnemonic} (hc : s.cfg.bounds = .checked)
    (hk : s.cfg.opcodeMap.lookup (s.readByte s.pc) = some k) (hend : 255 < s.pc.toNat + k.operandCount) :
    decode s.cfg.opcodeMap (fetchBytes s) = .error .truncated := by
  rw [fetchBytes_eq, decode_cons_of_lookup hk]
  apply decodeOperands_of_short
  have hlen := bytesFrom_length_le hc 2 (k := 1) (by have := s.pc.isLt; omega)
  omega

/-- While RUNNING bytes that end too early are a PC_RANGE fault of the fetch (R93, R101). -/
theorem step_of_decode_truncated {s : State} (hr : s.runState = .running)
    (hd : decode s.cfg.opcodeMap (fetchBytes s) = .error .truncated) :
    step s = .next (takeFault .pcRange s) := by
  rw [step, fetchDecode_running hr, hd]

/-! ### Bytes placed at pc -/

@[simp] theorem placeAtPc_cfg (s : State) (k : Nat) (bs : List Byte) : (placeAtPc s k bs).cfg = s.cfg := by
  induction bs generalizing s k with
  | nil => rfl
  | cons b bs ih => exact ih _ _

@[simp] theorem placeAtPc_pc (s : State) (k : Nat) (bs : List Byte) : (placeAtPc s k bs).pc = s.pc := by
  induction bs generalizing s k with
  | nil => rfl
  | cons b bs ih => exact ih _ _

/-- The address at which a byte is placed k bytes after pc. -/
theorem pc_add_ofNat (pc : Byte) (k : Nat) : BitVec.ofNat 8 ((pc.toNat + k) % 256) = pc + BitVec.ofNat 8 k :=
  BitVec.eq_of_toNat_eq (by simp [BitVec.toNat_add])

/-- Offsets below 256 from one pc are different addresses. -/
theorem add_ofNat_ne {pc : Byte} {j k : Nat} (hj : j < 256) (hk : k < 256) (h : j ≠ k) :
    pc + BitVec.ofNat 8 j ≠ pc + BitVec.ofNat 8 k := by
  intro e
  have e' := congrArg BitVec.toNat (BitVec.add_right_inj pc |>.mp e)
  rw [byte_toNat_ofNat hj, byte_toNat_ofNat hk] at e'
  exact h e'

/-- Bytes placed from k bytes after pc on leave the bytes before them. -/
theorem placeAtPc_readByte_of_lt {s : State} {j k : Nat} {bs : List Byte} (hj : j < k)
    (hfit : k + bs.length ≤ 256) :
    (placeAtPc s k bs).readByte (s.pc + BitVec.ofNat 8 j) = s.readByte (s.pc + BitVec.ofNat 8 j) := by
  induction bs generalizing s k with
  | nil => rfl
  | cons b bs ih =>
    rw [List.length_cons] at hfit
    have hne : s.pc + BitVec.ofNat 8 j ≠ s.pc + BitVec.ofNat 8 k := add_ofNat_ne (by omega) (by omega) (by omega)
    have hrest := ih (s := s.writeByte (s.pc + BitVec.ofNat 8 k) b) (k := k + 1) (by omega) (by omega)
    rw [placeAtPc, pc_add_ofNat]
    exact hrest.trans ((State.readByte_writeByte ..).trans (if_neg hne))

/-- Each placed byte stands at its offset from pc, when no more than 256 bytes are placed (10_state.md R40). -/
theorem placeAtPc_readByte {s : State} {j k : Nat} {bs : List Byte} (hj : j < bs.length)
    (hfit : k + bs.length ≤ 256) :
    (placeAtPc s k bs).readByte (s.pc + BitVec.ofNat 8 (k + j)) = bs[j] := by
  induction bs generalizing s k j with
  | nil => exact absurd hj (Nat.not_lt_zero j)
  | cons b bs ih =>
    rw [List.length_cons] at hj hfit
    rw [placeAtPc, pc_add_ofNat]
    cases j with
    | zero =>
      have hkept := placeAtPc_readByte_of_lt (s := s.writeByte (s.pc + BitVec.ofNat 8 k) b) (j := k) (k := k + 1)
        (bs := bs) (Nat.lt_succ_self k) (by omega)
      exact hkept.trans ((State.readByte_writeByte ..).trans (if_pos rfl))
    | succ j =>
      have hrest := ih (s := s.writeByte (s.pc + BitVec.ofNat 8 k) b) (j := j) (k := k + 1) (by omega) (by omega)
      rwa [Nat.add_right_comm] at hrest

@[simp] theorem State.withFetchWord_runState (s : State) (nbits w : Nat) :
    (s.withFetchWord nbits w).runState = .running := rfl

@[simp] theorem State.withFetchWord_cfg (s : State) (nbits w : Nat) : (s.withFetchWord nbits w).cfg = s.cfg :=
  placeAtPc_cfg s 0 _

@[simp] theorem State.withFetchWord_pc (s : State) (nbits w : Nat) : (s.withFetchWord nbits w).pc = s.pc :=
  placeAtPc_pc s 0 _

/-- The bytes of a placed word stand at pc, in order (10_state.md R40). -/
theorem State.withFetchWord_readByte (s : State) {nbits w k : Nat} (hk : k < (tableBytes nbits w).length) :
    (s.withFetchWord nbits w).readByte (s.pc + BitVec.ofNat 8 k) = (tableBytes nbits w)[k] := by
  have hplaced := placeAtPc_readByte (s := s) (k := 0) hk (by rw [tableBytes_length]; decide)
  rwa [Nat.zero_add] at hplaced

/-- Under the default map a placed word is the encoding of what it decodes to, at pc. -/
theorem standsAtPc_withFetchWord {s : State} {nbits w : Nat} {i : Instr}
    (hmap : s.cfg.opcodeMap = OpcodeMap.default) (h : decodeTableWord nbits w = some i) :
    standsAtPc (s.withFetchWord nbits w) i := by
  intro k hk
  simp only [State.withFetchWord_cfg, State.withFetchWord_pc, hmap] at hk ⊢
  have hword := encode_prefix_tableBytes h
  rw [s.withFetchWord_readByte (hk.trans_le hword.length_le), hword.getElem hk]

/-! ### A jump to itself -/

/-- JMP sets pc to its register and changes nothing else (45_branch.md R152). -/
theorem exec_jmp {s : State} {a : Byte} (hreach : reaches s 1) (hname : names s a) :
    exec (.jmp a) s = .next (s.setPc (s.reg (regOf a))) := by
  simp only [exec, execJmp, branchIf, operandFetch_ok hreach, ridx_ok hname, bind_ok, if_true, commit_ok]

/-- A state that a step leaves as it is stays so after any number of steps (R103). -/
theorem run_of_step_eq_self {s : State} (h : step s = .next s) (k : Nat) : Sys2Proof.core.run k s = .next s := by
  induction k with
  | zero => rfl
  | succ k ih => exact (run_succ k h).trans ih

end Sys2Proof.Machine

namespace Sys2Proof.Stated

open Sys2Proof.Machine

/-- Settles O22: a fetch reads no byte past 255, so a decode that needs one ends early, and that is the fault. -/
theorem operandPastEndFaults : Obligations.OperandPastEndFaults :=
  fun _ _ hr hc hk hend => step_of_decode_truncated hr (decode_fetchBytes_truncated hc hk hend)

/-- Settles O47: the word's encoding stands at pc (`standsAtPc_withFetchWord`), and a step runs what stands there. -/
theorem fetchWordRunsNext : Obligations.FetchWordRunsNext := by
  intro s nbits w i hmap hfit h
  refine stepRunsEncodedBytes _ i (s.withFetchWord_runState nbits w) ?_ ?_ (standsAtPc_withFetchWord hmap h)
  · rw [State.withFetchWord_cfg, hmap]
    decide
  · intro hc
    rw [State.withFetchWord_cfg] at hc
    have hpc := hfit hc
    have hcount := i.operands_length ▸ i.mnemonic.operandCount_le_two
    rw [State.withFetchWord_pc]
    omega

/-- Settles O55: the jump leaves the whole state as it is, so by induction on the steps the block stays RUNNING. -/
theorem selfJumpHangs : Obligations.SelfJumpHangs := by
  intro s a hr hwf hreach hop hoperand hname htarget k
  have hstands : standsAtPc s (.jmp a) := by
    intro j hj
    match j, hj with
    | 0, _ => exact (congrArg s.readByte (BitVec.add_zero s.pc)).trans hop
    | 1, _ => exact hoperand
  have hself : step s = .next s :=
    calc step s = exec (.jmp a) s := stepRunsEncodedBytes s _ hr hwf hreach hstands
      _ = .next (s.setPc s.pc) := by rw [exec_jmp hreach hname, htarget]
  exact ⟨s, run_of_step_eq_self hself k, hr⟩

/-- Settles O18: the two cases of each helper are the two branches of its rule. -/
theorem checkedHelperRules : Obligations.CheckedHelperRules := by
  refine ⟨fun mode pc k _ _ => ?_, fun mode b => ?_, fun mode v => ?_, fun mode v => ?_⟩
  · obtain ⟨hle, e⟩ | ⟨hc, hlt, e⟩ := seq_cases mode pc k
    · rw [e, if_neg fun h => Nat.not_lt.mpr (hle h.1) h.2]
    · rw [e, if_pos ⟨hc, hlt⟩]
  · obtain ⟨hle, e⟩ | ⟨hc, hlt, e⟩ := ridx_cases mode b
    · rw [e, if_neg fun h => Nat.not_lt.mpr (hle h.1) h.2]
    · rw [e, if_pos ⟨hc, hlt⟩]
  · obtain ⟨hne, e⟩ | ⟨hc, hv, e⟩ := spdec_cases mode v
    · rw [e, if_neg fun h => hne h.1 h.2]
    · rw [e, if_pos ⟨hc, hv⟩]
  · obtain ⟨hne, e⟩ | ⟨hc, hv, e⟩ := spinc_cases mode v
    · rw [e, if_neg fun h => hne h.1 h.2]
    · rw [e, if_pos ⟨hc, hv⟩]

/-- Settles O19: a fetch that decodes answers `run`, and the step hands that instruction to `exec`. -/
theorem stepRunsDecoded : Obligations.StepRunsDecoded := fun _ _ _ => step_of_decode_ok

end Sys2Proof.Stated
end

section
/-! System (41_system.md): HLT, PRN and the decimal form of PRINT, and the one instruction that halts. -/

namespace Sys2Proof.Machine

open Sys2Proof.Stated

/-! ### HLT and PRN -/

/-- HLT writes RUN_STATE alone, in every state (R110). -/
theorem exec_hlt (s : State) : exec .hlt s = .next (s.setRunState .halted) := commit_ok s _

/-- PRN emits its register and moves on (R111). -/
theorem exec_prn {s : State} {a : Byte} (hreach : reaches s 2) (hname : names s a) :
    exec (.prn a) s = .next ((s.emit (.print (s.reg (regOf a)))).setPc (s.pc + 2)) := by
  have hfetch : reaches s 1 := fun hc => by have := hreach hc; omega
  simp only [exec, execPrn, operandFetch_ok hfetch, ridx_ok hname, advance_ok hreach, bind_ok, commit_ok]
  rfl

/-- PRN faults first where its operand byte is past address 255 (R111). -/
theorem exec_prn_of_fetch_error {s : State} {a : Byte} (hc : s.cfg.bounds = .checked)
    (hend : 255 < s.pc.toNat + 1) : exec (.prn a) s = .next (takeFault .pcRange s) := by
  simp only [exec, execPrn, operandFetch_error hc hend, bind_error, commit_error]

/-- PRN faults next where its operand byte names no register (R111). -/
theorem exec_prn_of_ridx_error {s : State} {a : Byte} (hc : s.cfg.bounds = .checked)
    (hfetch : reaches s 1) (ha : 7 < a.toNat) : exec (.prn a) s = .next (takeFault .regIndex s) := by
  simp only [exec, execPrn, operandFetch_ok hfetch, hc, ridx_error ha, bind_ok, bind_error, commit_error]

/-- PRN faults last where its next pc is past address 255, and what it emitted is discarded (R111). -/
theorem exec_prn_of_advance_error {s : State} {a : Byte} (hc : s.cfg.bounds = .checked)
    (hfetch : reaches s 1) (hname : names s a) (hend : 255 < s.pc.toNat + 2) :
    exec (.prn a) s = .next (takeFault .pcRange s) := by
  simp only [exec, execPrn, operandFetch_ok hfetch, ridx_ok hname, advance_error hc hend, bind_ok, commit_error]

/-! ### The decimal form of PRINT -/

/-- The character of a decimal digit. -/
theorem digitChar_eq_ofNat {d : Nat} (h : d < 10) : d.digitChar = Char.ofNat ('0'.toNat + d) := by
  interval_cases d <;> rfl

/-- The library's decimal digits of a number of at most three digits. -/
theorem toDigits_eq_decimal {n : Nat} (h : n < 1000) : Nat.toDigits 10 n = decimal n := by
  unfold decimal
  split
  · next h1 =>
    rw [Nat.toDigits_of_lt_base h1, digitChar_eq_ofNat h1]
    rfl
  split
  · next h1 h2 =>
    rw [Nat.toDigits_of_base_le (by decide) (by omega), Nat.toDigits_of_lt_base (by omega),
      digitChar_eq_ofNat (d := n / 10) (by omega), digitChar_eq_ofNat (d := n % 10) (by omega)]
    rfl
  · next h1 h2 =>
    rw [Nat.toDigits_of_base_le (by decide) (by omega), Nat.toDigits_of_base_le (by decide) (by omega),
      Nat.toDigits_of_lt_base (by omega), digitChar_eq_ofNat (d := n / 10 / 10) (by omega),
      digitChar_eq_ofNat (d := n / 10 % 10) (by omega), digitChar_eq_ofNat (d := n % 10) (by omega),
      Nat.div_div_eq_div_mul]
    rfl

/-- The host renders PRINT in decimal and a newline (R111). -/
theorem render_print (v : Byte) :
    Event.render (.print v) = some (String.ofList (decimal v.toNat ++ ['\n'])) := by
  have hlt : v.toNat < 1000 := v.isLt.trans (by decide)
  rw [Event.render, Nat.toString_eq_ofList_toDigits, toDigits_eq_decimal hlt, String.ofList_append]

end Sys2Proof.Machine

namespace Sys2Proof.Stated

open Sys2Proof.Machine

/-- Settles O2: the completion and the three faults in the order PRN checks, each a case of its meaning, and the
rendering by `render_print`. -/
theorem printRule : Obligations.PrintRule := by
  refine fun map a s => ⟨rfl, rfl, exec_prn, render_print, render_print 72, fun hc => ⟨?_, ?_, ?_⟩⟩
  · exact fun hpc => exec_prn_of_fetch_error hc (by omega)
  · exact fun hpc ha => exec_prn_of_ridx_error hc (fun _ => by omega) ha
  · exact fun hpc ha => exec_prn_of_advance_error hc (fun _ => by omega) (fun _ => ha) (by omega)

/-- Settles O27: HLT halts (`exec_hlt`); what else commits keeps RUN_STATE (`Commits.runState_eq`), and a fault leaves
the block FAULTED. -/
theorem onlyHaltHalts : Obligations.OnlyHaltHalts := by
  intro i s t hr h
  by_cases hi : i = .hlt
  · subst hi
    cases (exec_hlt s).symm.trans h
    exact ⟨by simp, fun hne => absurd rfl hne⟩
  · have hend : t.runState = .running ∨ t.runState = .faulted :=
      (exec_cases h).imp (fun hc => (hc.runState_eq hi).trans hr) Faults.runState_eq
    exact ⟨by obtain e | e := hend <;> simp [e, hi], fun _ => hend⟩

/-- Settles O1: `exec_hlt`, and a step outside RUNNING changes nothing. -/
theorem haltRule : Obligations.HaltRule :=
  fun _ s => ⟨rfl, rfl, exec_hlt s, step_not_running nofun, rfl⟩

end Sys2Proof.Stated
end

section
/-! Load and store (42_load_store.md): LDI, PUSH and POP with their faults, and the push-pop law. -/

namespace Sys2Proof.Machine

open Sys2Proof.Stated

/-! ### The operand checks an instruction with a register begins with -/

/-- The first fault: an operand byte past address 255 (40_dispatch.md R93, R101). -/
theorem commit_fetch_error {s : State} {n : Nat} {f : Unit → Working} (hc : s.cfg.bounds = .checked)
    (hend : 255 < s.pc.toNat + n) : commit s (operandFetch s n >>= f) = .next (takeFault .pcRange s) := by
  rw [operandFetch_error hc hend, bind_error, commit_error]

/-- The next fault: an operand byte that names no register (R95, R101). -/
theorem commit_ridx_error {s : State} {n : Nat} {a : Byte} {f : RegIdx → Working}
    (hc : s.cfg.bounds = .checked) (hfetch : reaches s n) (ha : 7 < a.toNat) :
    commit s (operandFetch s n >>= fun _ => ridx s.cfg.bounds a >>= f) = .next (takeFault .regIndex s) := by
  rw [operandFetch_ok hfetch, bind_ok, hc, ridx_error ha, bind_error, commit_error]

/-- Where both checks pass, the rest of the meaning runs with the register that the byte names. -/
theorem commit_ridx_ok {s : State} {n : Nat} {a : Byte} {f : RegIdx → Working}
    (hfetch : reaches s n) (hname : names s a) :
    commit s (operandFetch s n >>= fun _ => ridx s.cfg.bounds a >>= f) = commit s (f (regOf a)) := by
  rw [operandFetch_ok hfetch, bind_ok, ridx_ok hname, bind_ok]

/-- An address in reach has every nearer one in reach (R94). -/
theorem reaches_of_le {s : State} {m n : Nat} (h : reaches s n) (hle : m ≤ n) : reaches s m :=
  fun hc => (Nat.add_le_add_left hle _).trans (h hc)

/-! ### LDI -/

/-- LDI past its operand checks (R120). -/
theorem exec_ldi_eq_commit {s : State} {a imm : Byte} (hfetch : reaches s 2) (hname : names s a) :
    exec (.ldi a imm) s = commit s (advance s 3 (s.setReg (regOf a) imm)) :=
  commit_ridx_ok hfetch hname

/-- LDI writes its literal and moves on (R120). -/
theorem exec_ldi {s : State} {a imm : Byte} (hreach : reaches s 3) (hname : names s a) :
    exec (.ldi a imm) s = .next ((s.setReg (regOf a) imm).setPc (s.pc + 3)) := by
  rw [exec_ldi_eq_commit (reaches_of_le hreach (by decide)) hname, advance_ok hreach, commit_ok]
  rfl

/-- LDI faults last where its next pc is past address 255 (R120). -/
theorem exec_ldi_of_advance_error {s : State} {a imm : Byte} (hc : s.cfg.bounds = .checked)
    (hfetch : reaches s 2) (hname : names s a) (hend : 255 < s.pc.toNat + 3) :
    exec (.ldi a imm) s = .next (takeFault .pcRange s) := by
  rw [exec_ldi_eq_commit hfetch hname, advance_error hc hend, commit_error]

/-! ### PUSH -/

/-- The working copy of PUSH with the new SP `sp`: Ra is read after SP moves (R121). -/
def pushedAt (s : State) (i : RegIdx) (sp : Byte) : State :=
  (s.setReg spIdx sp).writeByte sp ((s.setReg spIdx sp).reg i)

/-- PUSH past its operand checks (R121). -/
theorem exec_push_eq_commit {s : State} {a : Byte} (hfetch : reaches s 1) (hname : names s a) :
    exec (.push a) s =
      commit s (spdec s.cfg.bounds s.sp >>= fun sp => advance s 2 (pushedAt s (regOf a) sp)) :=
  commit_ridx_ok hfetch hname

/-- PUSH moves SP down, stores at the new SP and moves on (R121). -/
theorem exec_push {s : State} {a : Byte} (hreach : reaches s 2) (hname : names s a)
    (hsp : s.cfg.bounds = .checked → s.sp ≠ 0) :
    exec (.push a) s = .next ((pushedAt s (regOf a) (s.sp - 1)).setPc (s.pc + 2)) := by
  rw [exec_push_eq_commit (reaches_of_le hreach (by decide)) hname, spdec_ok hsp, bind_ok, advance_ok hreach,
    commit_ok]
  rfl

/-- PUSH faults after its operand checks where SP is 0 (R121). -/
theorem exec_push_of_spdec_error {s : State} {a : Byte} (hc : s.cfg.bounds = .checked)
    (hfetch : reaches s 1) (hname : names s a) (hsp : s.sp = 0) :
    exec (.push a) s = .next (takeFault .spRange s) := by
  rw [exec_push_eq_commit hfetch hname, hc, hsp, spdec_error, bind_error, commit_error]

/-- PUSH faults last where its next pc is past address 255, and its store is discarded (R121). -/
theorem exec_push_of_advance_error {s : State} {a : Byte} (hc : s.cfg.bounds = .checked)
    (hfetch : reaches s 1) (hname : names s a) (hsp : s.sp ≠ 0) (hend : 255 < s.pc.toNat + 2) :
    exec (.push a) s = .next (takeFault .pcRange s) := by
  rw [exec_push_eq_commit hfetch hname, spdec_ok fun _ => hsp, bind_ok, advance_error hc hend, commit_error]

/-! ### POP -/

/-- POP past its operand checks (R122). -/
theorem exec_pop_eq_commit {s : State} {a : Byte} (hfetch : reaches s 1) (hname : names s a) :
    exec (.pop a) s = commit s (popInto (regOf a) (s.readByte s.sp) s >>= advance s 2) :=
  commit_ridx_ok hfetch hname

/-- POP writes the top byte to its register, increments R7 as it then stands and moves on (R122). -/
theorem exec_pop {s : State} {a : Byte} (hreach : reaches s 2) (hname : names s a)
    (hsp : s.cfg.bounds = .checked → (s.setReg (regOf a) (s.readByte s.sp)).sp ≠ 255) :
    exec (.pop a) s = .next (((s.setReg (regOf a) (s.readByte s.sp)).setReg spIdx
      ((s.setReg (regOf a) (s.readByte s.sp)).sp + 1)).setPc (s.pc + 2)) := by
  rw [exec_pop_eq_commit (reaches_of_le hreach (by decide)) hname, popInto_ok hsp, bind_ok, advance_ok hreach,
    commit_ok]
  rfl

/-- POP faults after its operand checks where the value to be incremented is 255 (R122). -/
theorem exec_pop_of_spinc_error {s : State} {a : Byte} (hc : s.cfg.bounds = .checked)
    (hfetch : reaches s 1) (hname : names s a) (hsp : (s.setReg (regOf a) (s.readByte s.sp)).sp = 255) :
    exec (.pop a) s = .next (takeFault .spRange s) := by
  rw [exec_pop_eq_commit hfetch hname, popInto_error hc hsp, bind_error, commit_error]

/-- POP faults last where its next pc is past address 255, and its writes are discarded (R122). -/
theorem exec_pop_of_advance_error {s : State} {a : Byte} (hc : s.cfg.bounds = .checked)
    (hfetch : reaches s 1) (hname : names s a) (hsp : (s.setReg (regOf a) (s.readByte s.sp)).sp ≠ 255)
    (hend : 255 < s.pc.toNat + 2) : exec (.pop a) s = .next (takeFault .pcRange s) := by
  rw [exec_pop_eq_commit hfetch hname, popInto_ok fun _ => hsp, bind_ok, advance_error hc hend, commit_error]

/-! ### PUSH, then POP -/

/-- States that read alike in every register hold the same registers. -/
theorem State.regs_eq_of_reg_eq {s t : State} (h : ∀ r, t.reg r = s.reg r) : t.regs = s.regs :=
  Vector.ext fun i hi => h ⟨i, hi⟩

/-- SP after a register write: the value written where the register is R7 (10_state.md R21). -/
theorem State.sp_setReg (s : State) (i : RegIdx) (v : Byte) :
    (s.setReg i v).sp = if i = spIdx then v else s.sp := by
  simp only [State.sp, State.reg_setReg, @eq_comm _ spIdx]

/-- What POP leaves in its register when that is not SP (R122). -/
theorem Commits.reg_eq_of_pop {s t : State} {a : Byte} (h : Commits s (.pop a) t) (ha : regOf a ≠ spIdx) :
    t.reg (regOf a) = s.readByte s.sp := by
  cases h
  rw [State.setPc_reg, State.reg_setReg_ne _ _ ha, State.reg_setReg_self]

/-- What POP leaves in SP: one more than the byte popped into it, or than its old value (R122). -/
theorem Commits.sp_eq_of_pop {s t : State} {a : Byte} (h : Commits s (.pop a) t) :
    t.sp = (if regOf a = spIdx then s.readByte s.sp else s.sp) + 1 := by
  cases h
  rw [State.setPc_sp, State.sp_setReg_spIdx, State.sp_setReg]

section PushThenPop

variable {s t u : State} {a b v : Byte} (ht : Commits s (.push a) t) (hu : Commits t (.pop b) u)
  (hv : Stores s (s.sp - 1) (.push a) v)

include ht hv in
/-- PUSH leaves the byte it stored on top of the stack (R121). -/
theorem push_top : t.readByte t.sp = v := by
  rw [ht.readByte_of_stores hv, if_pos (ht.sp_eq_of_push_or_call (.inl rfl))]

include ht hu hv

/-- POP leaves the cell as PUSH stored it (R123). -/
theorem push_pop_readByte : u.readByte (s.sp - 1) = v := by
  have hmem : u.mem = t.mem := hu.mem_eq nofun nofun
  have hcell : t.readByte (s.sp - 1) = v := by rw [ht.readByte_of_stores hv, if_pos rfl]
  exact (congrArg (Memory.read · (s.sp - 1)) hmem).trans hcell

/-- A register other than SP gets what PUSH stored (R123). -/
theorem push_pop_reg (hb : regOf b ≠ 7) : u.reg (regOf b) = v :=
  (hu.reg_eq_of_pop hb).trans (push_top ht hv)

/-- SP is restored, or is one more than what was stored when POP writes it (R123). -/
theorem push_pop_sp : u.sp = if regOf b = 7 then v + 1 else s.sp := by
  rw [hu.sp_eq_of_pop, push_top ht hv, ht.sp_eq_of_push_or_call (.inl rfl), apply_ite (· + 1),
    BitVec.sub_add_cancel]
  rfl

/-- Popped into the register that was pushed, every register is restored (R123). -/
theorem push_pop_regs (hab : regOf b = regOf a) : u.regs = s.regs := by
  have hsp := push_pop_sp ht hu hv
  have hreg := push_pop_reg ht hu hv
  cases hv
  refine State.regs_eq_of_reg_eq fun r => ?_
  by_cases h7 : r = 7
  · subst h7
    by_cases hb : regOf b = 7
    · exact hsp.trans (by rw [if_pos hb, if_pos (hab ▸ hb), BitVec.sub_add_cancel, State.sp_eq_reg])
    · exact hsp.trans (if_neg hb)
  by_cases hr : r = regOf b
  · subst hr
    rw [hreg h7, if_neg (hab ▸ h7), hab]
  · have hpop : r ∉ writtenRegs t (.pop b) := by simp [writtenRegs, spIdx, hr, h7]
    have hpush : r ∉ writtenRegs s (.push a) := by simp [writtenRegs, spIdx, h7]
    exact (hu.reg_eq hpop).trans (ht.reg_eq hpush)

end PushThenPop

end Sys2Proof.Machine

namespace Sys2Proof.Stated

open Sys2Proof.Machine

/-- Settles O52: neither faults, so both commit; the clauses are what a pair of commits leaves in the cell, in the
popped register, in SP and in all registers, with the stored byte split by whether it is SP. -/
theorem pushThenPop : Obligations.PushThenPop := by
  intro a b s t u _ hpush hrt hpop hru
  have ht := commits_of_exec_running hpush hrt
  have hu := commits_of_exec_running hpop hru
  have hsp := push_pop_sp ht hu (.push a)
  refine ⟨push_pop_readByte ht hu (.push a), push_pop_regs ht hu (.push a), fun ha hb => ?_,
    fun ha hb => ?_, fun ha hb => ?_⟩
  · exact ⟨(push_pop_reg ht hu (.push a) hb).trans (if_neg ha), hsp.trans (if_neg hb)⟩
  · exact ⟨(push_pop_reg ht hu (.push a) hb).trans (if_pos ha), hsp.trans (if_neg hb)⟩
  · rw [hsp, if_pos hb, if_neg ha]

/-- Settles O3: the completion and the three faults in the order LDI checks, each a case of its meaning. -/
theorem loadImmediateRule : Obligations.LoadImmediateRule := by
  refine fun map a imm s => ⟨rfl, rfl, exec_ldi, fun hc => ⟨?_, ?_, ?_⟩⟩
  · exact fun hpc => commit_fetch_error hc (by omega)
  · exact fun hpc ha => commit_ridx_error hc (fun _ => by omega) ha
  · exact fun hpc ha => exec_ldi_of_advance_error hc (fun _ => by omega) (fun _ => ha) (by omega)

/-- Settles O4: the completion and the four faults in the order PUSH checks, each a case of its meaning. -/
theorem pushRule : Obligations.PushRule := by
  refine fun map a s => ⟨rfl, rfl, exec_push, fun hc => ⟨?_, ?_, ?_, ?_⟩⟩
  · exact fun hpc => commit_fetch_error hc (by omega)
  · exact fun hpc ha => commit_ridx_error hc (fun _ => by omega) ha
  · exact fun hpc ha => exec_push_of_spdec_error hc (fun _ => by omega) (fun _ => ha)
  · exact fun hpc ha hsp =>
      exec_push_of_advance_error hc (fun _ => by omega) (fun _ => ha) hsp (by omega)

/-- Settles O5: the completion and the four faults in the order POP checks, each a case of its meaning. -/
theorem popRule : Obligations.PopRule := by
  refine fun map a s => ⟨rfl, rfl, exec_pop, fun hc => ⟨?_, ?_, ?_, ?_⟩⟩
  · exact fun hpc => commit_fetch_error hc (by omega)
  · exact fun hpc ha => commit_ridx_error hc (fun _ => by omega) ha
  · exact fun hpc ha => exec_pop_of_spinc_error hc (fun _ => by omega) (fun _ => ha)
  · exact fun hpc ha hsp =>
      exec_pop_of_advance_error hc (fun _ => by omega) (fun _ => ha) hsp (by omega)

end Sys2Proof.Stated
end

section
/-! Arithmetic and compare (43_arith.md): MUL, ADD and CMP with their faults, and the symmetry of MUL and ADD. -/

namespace Sys2Proof.Machine

open Sys2Proof.Stated

/-! ### The results, as words -/

/-- The low 8 bits of the product are the product of bytes (43_arith.md R130). -/
theorem mulBytes_eq_mul (u w : Byte) : mulBytes u w = u * w :=
  BitVec.eq_of_toNat_eq (by simp [mulBytes])

/-- The low 8 bits of the sum are the sum of bytes (R131). -/
theorem addBytes_eq_add (u w : Byte) : addBytes u w = u + w :=
  BitVec.eq_of_toNat_eq (by simp [addBytes])

theorem mulBytes_comm (u w : Byte) : mulBytes u w = mulBytes w u := by
  rw [mulBytes_eq_mul, mulBytes_eq_mul, BitVec.mul_comm]

theorem addBytes_comm (u w : Byte) : addBytes u w = addBytes w u := by
  rw [addBytes_eq_add, addBytes_eq_add, BitVec.add_comm]

/-! ### The shape of an instruction with two registers

MUL, ADD and CMP fetch two operand bytes, check a and then b, and move on by three bytes. They differ in the working
copy `result i j` that the registers give. -/

/-- The shape MUL, ADD and CMP share; `execAlu_eq_twoRegister` and `exec_cmp_eq_twoRegister` tie it to them. -/
def twoRegister (result : RegIdx → RegIdx → State) (a b : Byte) (s : State) :
    Host.Outcome State Fault Refusal :=
  commit s do
    operandFetch s 2
    let i ← ridx s.cfg.bounds a
    let j ← ridx s.cfg.bounds b
    advance s 3 (result i j)

variable {result : RegIdx → RegIdx → State} {a b : Byte} {s : State}

/-- Past the check of a, what is left is the check of b and the next pc. -/
theorem twoRegister_eq_commit (hfetch : reaches s 2) (ha : names s a) :
    twoRegister result a b s =
      commit s (ridx s.cfg.bounds b >>= fun j => advance s 3 (result (regOf a) j)) :=
  commit_ridx_ok hfetch ha

/-- Where nothing is out of range the working copy is committed, three bytes on. -/
theorem twoRegister_ok (hreach : reaches s 3) (ha : names s a) (hb : names s b) :
    twoRegister result a b s = .next ((result (regOf a) (regOf b)).setPc (s.pc + 3)) := by
  rw [twoRegister_eq_commit (reaches_of_le hreach (by decide)) ha, ridx_ok hb, bind_ok, advance_ok hreach,
    commit_ok]
  rfl

/-- A byte that names no register faults in either place, a being checked before b (40_dispatch.md R95, R101). -/
theorem twoRegister_of_ridx_error (hc : s.cfg.bounds = .checked) (hfetch : reaches s 2)
    (hab : 7 < a.toNat ∨ 7 < b.toNat) : twoRegister result a b s = .next (takeFault .regIndex s) := by
  by_cases ha : 7 < a.toNat
  · exact commit_ridx_error hc hfetch ha
  · rw [twoRegister_eq_commit hfetch fun _ => Nat.not_lt.mp ha, hc, ridx_error (hab.resolve_left ha),
      bind_error, commit_error]

/-- The next pc past address 255 faults last, and the working copy is discarded (R94, R101). -/
theorem twoRegister_of_advance_error (hc : s.cfg.bounds = .checked) (hfetch : reaches s 2)
    (ha : names s a) (hb : names s b) (hend : 255 < s.pc.toNat + 3) :
    twoRegister result a b s = .next (takeFault .pcRange s) := by
  rw [twoRegister_eq_commit hfetch ha, ridx_ok hb, bind_ok, advance_error hc hend, commit_error]

/-- The three faults in the order they are checked, each at the addresses where the rules R130 to R132 give it. -/
theorem twoRegister_faults (hc : s.cfg.bounds = .checked) :
    (254 ≤ s.pc.toNat → twoRegister result a b s = .next (faulted .pcRange s)) ∧
    (s.pc.toNat ≤ 253 → 7 < a.toNat ∨ 7 < b.toNat →
      twoRegister result a b s = .next (faulted .regIndex s)) ∧
    (s.pc.toNat = 253 → a.toNat ≤ 7 → b.toNat ≤ 7 →
      twoRegister result a b s = .next (faulted .pcRange s)) := by
  refine ⟨fun hpc => ?_, fun hpc hab => ?_, fun hpc ha hb => ?_⟩
  · exact commit_fetch_error hc (by omega)
  · exact twoRegister_of_ridx_error hc (fun _ => by omega) hab
  · exact twoRegister_of_advance_error hc (fun _ => by omega) (fun _ => ha) (fun _ => hb) (by omega)

/-! ### MUL, ADD and CMP have that shape -/

/-- The working copy of MUL and ADD: Ra gets `f` of Ra and Rb (R130, R131). -/
def aluResult (f : Byte → Byte → Byte) (s : State) (i j : RegIdx) : State :=
  s.setReg i (f (s.reg i) (s.reg j))

/-- The working copy of CMP: the flags `f` of Ra and Rb, written and emitted (R132). -/
def cmpResult (f : Byte → Byte → Byte) (s : State) (i j : RegIdx) : State :=
  (s.setFl (f (s.reg i) (s.reg j))).emit (.flags (f (s.reg i) (s.reg j)))

theorem execAlu_eq_twoRegister (f : Byte → Byte → Byte) (a b : Byte) (s : State) :
    execAlu f a b s = twoRegister (aluResult f s) a b s := rfl

theorem exec_mul_eq_twoRegister (a b : Byte) (s : State) :
    exec (.mul a b) s = twoRegister (aluResult (· * ·) s) a b s :=
  congrArg (execAlu · a b s) (funext₂ mulBytes_eq_mul)

theorem exec_add_eq_twoRegister (a b : Byte) (s : State) :
    exec (.add a b) s = twoRegister (aluResult (· + ·) s) a b s :=
  congrArg (execAlu · a b s) (funext₂ addBytes_eq_add)

theorem exec_cmp_eq_twoRegister (a b : Byte) (s : State) :
    exec (.cmp a b) s = twoRegister (cmpResult cmpValue s) a b s :=
  congrArg (fun f => twoRegister (cmpResult f s) a b s) (funext₂ compareFlags_eq_cmpValue)

/-! ### Symmetry -/

/-- With a commutative `f`, the operands of MUL and ADD can be exchanged: what does not fault one way does not fault
the other, the results agree, and Rb is left alone where it is not Ra (R133). -/
theorem execAlu_symmetric {f : Byte → Byte → Byte} (hf : ∀ u w, f u w = f w u) {t u : State}
    (hs : s.runState = .running) (ht : execAlu f a b s = .next t) (hrt : t.runState = .running)
    (hu : execAlu f b a s = .next u) :
    u.runState = .running ∧ t.reg (regOf a) = u.reg (regOf b) ∧
    (regOf a ≠ regOf b → t.reg (regOf b) = s.reg (regOf b)) := by
  obtain ⟨hreach, ha, hb, rfl⟩ | hfault := execAlu_cases ht
  · rw [execAlu_eq_twoRegister, twoRegister_ok hreach hb ha] at hu
    cases hu
    refine ⟨hs, ?_, fun hne => ?_⟩
    · simp only [aluResult, State.setPc_reg, State.reg_setReg_self, hf]
    · exact State.reg_setReg_ne s _ hne.symm
  · exact absurd (hfault.runState_eq.symm.trans hrt) nofun

end Sys2Proof.Machine

namespace Sys2Proof.Stated

open Sys2Proof.Machine

/-- Settles O6: MUL has the shape of an instruction with two registers, which gives its completion and its faults. -/
theorem multiplyRule : Obligations.MultiplyRule := by
  intro map a b s
  rw [exec_mul_eq_twoRegister]
  exact ⟨rfl, rfl, twoRegister_ok, twoRegister_faults⟩

/-- Settles O7: ADD has the shape of an instruction with two registers, which gives its completion and its faults. -/
theorem addRule : Obligations.AddRule := by
  intro map a b s
  rw [exec_add_eq_twoRegister]
  exact ⟨rfl, rfl, twoRegister_ok, twoRegister_faults⟩

/-- Settles O8: CMP has the shape of an instruction with two registers, which gives its completion and its faults. -/
theorem compareRule : Obligations.CompareRule := by
  intro map a b s
  rw [exec_cmp_eq_twoRegister]
  exact ⟨rfl, rfl, twoRegister_ok, twoRegister_faults⟩

/-- Settles O57: both operations are `execAlu` with a commutative function. -/
theorem addMulSymmetric : Obligations.AddMulSymmetric := by
  rintro op a b s t u (rfl | rfl) hs ht hrt hu
  · exact execAlu_symmetric addBytes_comm hs ht hrt hu
  · exact execAlu_symmetric mulBytes_comm hs ht hrt hu

end Sys2Proof.Stated
end

section
/-! Subroutines (44_subroutine.md): CALL and RET with their faults, and the call-return law. -/

namespace Sys2Proof.Machine

open Sys2Proof.Stated

/-! ### CALL -/

/-- The working copy of CALL with the new SP `sp` and the return address `ret`: the target is read after SP moves
(R140, D17). -/
def calledAt (s : State) (i : RegIdx) (sp ret : Byte) : State :=
  ((s.setReg spIdx sp).writeByte sp ret).setPc ((s.setReg spIdx sp).reg i)

/-- CALL past its operand checks (R140). -/
theorem exec_call_eq_commit {s : State} {a : Byte} (hfetch : reaches s 1) (hname : names s a) :
    exec (.call a) s =
      commit s (spdec s.cfg.bounds s.sp >>= fun sp => seq s.cfg.bounds s.pc 2 >>= fun ret =>
        .ok (calledAt s (regOf a) sp ret)) :=
  commit_ridx_ok hfetch hname

/-- CALL moves SP down, stores the return address at the new SP and jumps (R140). -/
theorem exec_call {s : State} {a : Byte} (hreach : reaches s 2) (hname : names s a)
    (hsp : s.cfg.bounds = .checked → s.sp ≠ 0) :
    exec (.call a) s = .next (calledAt s (regOf a) (s.sp - 1) (s.pc + 2)) := by
  rw [exec_call_eq_commit (reaches_of_le hreach (by decide)) hname, spdec_ok hsp, bind_ok, seq_ok hreach,
    bind_ok, commit_ok]
  rfl

/-- CALL faults after its operand checks where SP is 0 (R140). -/
theorem exec_call_of_spdec_error {s : State} {a : Byte} (hc : s.cfg.bounds = .checked)
    (hfetch : reaches s 1) (hname : names s a) (hsp : s.sp = 0) :
    exec (.call a) s = .next (takeFault .spRange s) := by
  rw [exec_call_eq_commit hfetch hname, hc, hsp, spdec_error, bind_error, commit_error]

/-- CALL faults last where its return address is past address 255, and the move of SP is discarded (R140). -/
theorem exec_call_of_return_error {s : State} {a : Byte} (hc : s.cfg.bounds = .checked)
    (hfetch : reaches s 1) (hname : names s a) (hsp : s.sp ≠ 0) (hend : 255 < s.pc.toNat + 2) :
    exec (.call a) s = .next (takeFault .pcRange s) := by
  rw [exec_call_eq_commit hfetch hname, spdec_ok fun _ => hsp, bind_ok, hc, seq_error hend, bind_error,
    commit_error]

/-! ### RET -/

/-- The byte after a RET, which names the register that RET overwrites (R141, C2). -/
def quirkByte (s : State) : Byte := s.readByte (s.pc + 1)

/-- RET where the quirk byte is in reach: its index is checked, and the rest is the reading of the stack (R141). -/
theorem exec_ret_eq_commit {s : State} (hreach : reaches s 1) :
    exec .ret s = commit s (ridx s.cfg.bounds (quirkByte s) >>= fun q =>
      popInto q (s.readByte s.sp) s >>= fun w => .ok (w.setPc (s.readByte s.sp))) := by
  simp only [exec, execRet, seq_ok hreach, bind_ok]
  rfl

/-- RET pops into its register, increments R7 as it then stands and jumps to the popped byte (R141). -/
theorem exec_ret {s : State} (hreach : reaches s 1) (hname : names s (quirkByte s))
    (hsp : s.cfg.bounds = .checked → (s.setReg (regOf (quirkByte s)) (s.readByte s.sp)).sp ≠ 255) :
    exec .ret s = .next (((s.setReg (regOf (quirkByte s)) (s.readByte s.sp)).setReg spIdx
      ((s.setReg (regOf (quirkByte s)) (s.readByte s.sp)).sp + 1)).setPc (s.readByte s.sp)) := by
  rw [exec_ret_eq_commit hreach, ridx_ok hname, bind_ok, popInto_ok hsp, bind_ok, commit_ok]

/-- RET at address 255 has no quirk byte to read, and faults (R141). -/
theorem exec_ret_of_seq_error {s : State} (hc : s.cfg.bounds = .checked) (hend : 255 < s.pc.toNat + 1) :
    exec .ret s = .next (takeFault .pcRange s) := by
  simp only [exec, execRet, hc, seq_error hend, bind_error, commit_error]

/-- RET faults where its quirk byte names no register (R141, R95). -/
theorem exec_ret_of_ridx_error {s : State} (hc : s.cfg.bounds = .checked) (hreach : reaches s 1)
    (hq : 7 < (quirkByte s).toNat) : exec .ret s = .next (takeFault .regIndex s) := by
  rw [exec_ret_eq_commit hreach, hc, ridx_error hq, bind_error, commit_error]

/-- RET faults last where the value to be incremented is 255, and its write is discarded (R141). -/
theorem exec_ret_of_spinc_error {s : State} (hc : s.cfg.bounds = .checked) (hreach : reaches s 1)
    (hname : names s (quirkByte s)) (hsp : (s.setReg (regOf (quirkByte s)) (s.readByte s.sp)).sp = 255) :
    exec .ret s = .next (takeFault .spRange s) := by
  rw [exec_ret_eq_commit hreach, ridx_ok hname, bind_ok, popInto_error hc hsp, bind_error, commit_error]

/-! ### What CALL and RET commit -/

/-- CALL jumps to its register's value where that is not SP (R140). -/
theorem Commits.pc_eq_of_call {s t : State} {a : Byte} (h : Commits s (.call a) t) (ha : regOf a ≠ spIdx) :
    t.pc = s.reg (regOf a) := by
  cases h
  rw [State.setPc_pc, State.reg_setReg_ne _ _ ha]

/-- RET jumps to the byte it pops (R141). -/
theorem Commits.pc_eq_of_ret {s t : State} (h : Commits s .ret t) : t.pc = s.readByte s.sp := by
  cases h; rfl

/-- What RET leaves in the register its quirk byte names when that is not SP (R141). -/
theorem Commits.reg_eq_of_ret {s t : State} (h : Commits s .ret t) (hq : regOf (quirkByte s) ≠ spIdx) :
    t.reg (regOf (quirkByte s)) = s.readByte s.sp := by
  cases h
  rw [State.setPc_reg, State.reg_setReg_ne _ _ hq]
  exact State.reg_setReg_self ..

/-- What RET leaves in SP: one more than the byte popped into it, or than its old value (R141). -/
theorem Commits.sp_eq_of_ret {s t : State} (h : Commits s .ret t) :
    t.sp = (if regOf (quirkByte s) = spIdx then s.readByte s.sp else s.sp) + 1 := by
  cases h
  rw [State.setPc_sp, State.sp_setReg_spIdx, State.sp_setReg]
  rfl

/-! ### The steps of CALL and RET -/

/-- A step runs the CALL that stands at pc, and commits where nothing is out of range (40_dispatch.md R90, R140). -/
theorem step_call_commits {s : State} {a : Byte} (hr : s.runState = .running)
    (hwf : s.cfg.opcodeMap.wf = true) (hop : s.readByte s.pc = s.cfg.opcodeMap.call)
    (hoperand : s.readByte (s.pc + 1) = a) (hreach : reaches s 2) (hname : names s a)
    (hsp : s.cfg.bounds = .checked → s.sp ≠ 0) : ∃ t, step s = .next t ∧ Commits s (.call a) t := by
  have hstands : standsAtPc s (.call a) := by
    intro k hk
    match k, hk with
    | 0, _ => exact (congrArg s.readByte (BitVec.add_zero s.pc)).trans hop
    | 1, _ => exact hoperand
  have hstep : step s = exec (.call a) s :=
    stepRunsEncodedBytes s _ hr hwf (reaches_of_le hreach (Nat.le_succ 1)) hstands
  exact ⟨_, hstep.trans (exec_call hreach hname hsp), .call hreach hname hsp⟩

/-- A step runs the RET that stands at pc, whose opcode is its whole encoding, and commits where nothing is out of range
(R90, R141). -/
theorem step_ret_commits {s : State} (hr : s.runState = .running) (hwf : s.cfg.opcodeMap.wf = true)
    (hop : s.readByte s.pc = s.cfg.opcodeMap.ret) (hreach : reaches s 1) (hname : names s (quirkByte s))
    (hsp : s.cfg.bounds = .checked → (s.setReg (regOf (quirkByte s)) (s.readByte s.sp)).sp ≠ 255) :
    ∃ t, step s = .next t ∧ Commits s .ret t := by
  have hdecode : decode s.cfg.opcodeMap (fetchBytes s) = .ok (.ret, bytesFrom s 2 1) := by
    rw [fetchBytes_eq, hop]
    exact decode_encode hwf .ret _
  have hstep : step s = exec .ret s := step_of_decode_ok hr hdecode
  exact ⟨_, hstep.trans (exec_ret hreach hname hsp), .ret hreach hname hsp⟩

/-! ### CALL, then RET -/

/-- Of the bytes that name a register with CHECKED, 7 alone names SP (10_state.md R20, R21). -/
theorem regOf_eq_spIdx_iff {q : Byte} (hq : q.toNat ≤ 7) : regOf q = spIdx ↔ q = 7 := by
  rw [Fin.ext_iff, ← BitVec.toNat_inj]
  change q.toNat % 8 = 7 ↔ q.toNat = 7
  omega

section CallThenReturn

variable {s t u : State} {a : Byte} (ht : Commits s (.call a) t) (hu : Commits t .ret u)

include ht

/-- CALL leaves its return address on top of the stack (R140). -/
theorem call_top : t.readByte t.sp = s.pc + 2 := by
  rw [ht.readByte_of_stores (.call a), if_pos (ht.sp_eq_of_push_or_call (.inr rfl))]

/-- The RET after a CALL can increment SP: it is not 255 after the move down, and where RET pops into SP the return
address is not 255 either (R143). -/
theorem call_sp_incrementable {i : RegIdx} (hsp : s.sp ≠ 0) (hpc : i = spIdx → s.pc.toNat ≤ 252) :
    (t.setReg i (t.readByte t.sp)).sp ≠ 255 := by
  rw [State.sp_setReg, call_top ht, ht.sp_eq_of_push_or_call (.inr rfl)]
  split
  next hi => have := hpc hi; bv_omega
  next => bv_omega

include hu

/-- RET comes back to the instruction after the CALL (R143). -/
theorem call_return_pc : u.pc = s.pc + 2 := hu.pc_eq_of_ret.trans (call_top ht)

/-- RET leaves the cell as CALL stored it (R143). -/
theorem call_return_readByte : u.readByte (s.sp - 1) = s.pc + 2 := by
  have hmem : u.mem = t.mem := hu.mem_eq nofun nofun
  rw [← ht.sp_eq_of_push_or_call (.inr rfl)]
  exact (congrArg (Memory.read · t.sp) hmem).trans (call_top ht)

/-- A register other than SP gets the return address (R143). -/
theorem call_return_reg (hq : regOf (quirkByte t) ≠ spIdx) : u.reg (regOf (quirkByte t)) = s.pc + 2 :=
  (hu.reg_eq_of_ret hq).trans (call_top ht)

/-- SP is restored, or is one more than the return address when RET writes it (R143). -/
theorem call_return_sp : u.sp = if regOf (quirkByte t) = spIdx then s.pc + 3 else s.sp := by
  rw [hu.sp_eq_of_ret, call_top ht, ht.sp_eq_of_push_or_call (.inr rfl), apply_ite (· + 1),
    BitVec.sub_add_cancel, BitVec.add_assoc]
  rfl

end CallThenReturn

end Sys2Proof.Machine

namespace Sys2Proof.Stated

open Sys2Proof.Machine

/-- Settles O9: the completion and the four faults in the order CALL checks, each a case of its meaning. -/
theorem callRule : Obligations.CallRule := by
  refine fun map a s => ⟨rfl, rfl, exec_call, fun hc => ⟨?_, ?_, ?_, ?_⟩⟩
  · exact fun hpc => commit_fetch_error hc (by omega)
  · exact fun hpc ha => commit_ridx_error hc (fun _ => by omega) ha
  · exact fun hpc ha => exec_call_of_spdec_error hc (fun _ => by omega) (fun _ => ha)
  · exact fun hpc ha hsp =>
      exec_call_of_return_error hc (fun _ => by omega) (fun _ => ha) hsp (by omega)

/-- Settles O10: the completion and the three faults in the order RET checks, each a case of its meaning. -/
theorem returnRule : Obligations.ReturnRule := by
  refine fun map s => ⟨rfl, rfl, exec_ret, fun hc => ⟨?_, ?_, ?_⟩⟩
  · exact fun hpc => exec_ret_of_seq_error hc (by omega)
  · exact fun hpc => exec_ret_of_ridx_error hc (fun _ => by omega)
  · exact fun hpc hq => exec_ret_of_spinc_error hc (fun _ => by omega) (fun _ => hq)

/-- Settles O53: neither step faults, so both commit; the clauses are what a CALL and a RET that commit leave in pc, in
the cell, in RET's register and in SP, with the quirk byte split by whether it names SP. -/
theorem callThenReturn : Obligations.CallThenReturn := by
  intro s a target hr hwf hop hoperand hpc hname ha hsp htarget hle
  obtain ⟨t, hcall, ht⟩ :=
    step_call_commits hr hwf hop hoperand (fun _ => by omega) hname fun _ => hsp
  obtain rfl : t.pc = target := (ht.pc_eq_of_call ha).trans htarget
  refine ⟨t, hcall, rfl, fun hret q hq hq7 hroom => ?_⟩
  obtain rfl : quirkByte t = q := hq
  have hqsp := regOf_eq_spIdx_iff hq7
  have htr : t.runState = .running := (ht.runState_eq nofun).trans hr
  rw [← ht.cfg_eq] at hwf hret hroom
  obtain ⟨u, hreturn, hu⟩ := step_ret_commits htr hwf hret (fun _ => by omega) (fun _ => hq7)
    fun hc => call_sp_incrementable ht hsp fun hi => hroom hc (hqsp.mp hi)
  have husp := call_return_sp ht hu
  refine ⟨u, hreturn, (hu.runState_eq nofun).trans htr, call_return_pc ht hu,
    call_return_readByte ht hu, fun hq => ?_, fun hq => ?_⟩
  · rw [ne_eq, ← hqsp] at hq
    exact ⟨call_return_reg ht hu hq, husp.trans (if_neg hq)⟩
  · exact husp.trans (if_pos (hqsp.mpr hq))

end Sys2Proof.Stated
end

section
/-! Branches (45_branch.md): JEQ, JNE and JMP with their faults. -/

namespace Sys2Proof.Machine

open Sys2Proof.Stated

/-! ### The shape of a branch

The three jumps fetch one operand byte and check it, whether or not they are `taken`. -/

variable {taken : Bool} {a : Byte} {s : State}

/-- Past its operand checks a branch has its two ways on (45_branch.md R153). -/
theorem branchIf_eq_commit (hfetch : reaches s 1) (hname : names s a) :
    branchIf taken a s =
      commit s (if taken then .ok (s.setPc (s.reg (regOf a))) else advance s 2 s) :=
  commit_ridx_ok hfetch hname

/-- A taken branch jumps to its register, and needs no next sequential pc (R153). -/
theorem branchIf_of_taken (hfetch : reaches s 1) (hname : names s a) (htaken : taken = true) :
    branchIf taken a s = .next (s.setPc (s.reg (regOf a))) := by
  rw [branchIf_eq_commit hfetch hname, if_pos htaken, commit_ok]

/-- An untaken branch moves on (R153). -/
theorem branchIf_of_not_taken (hreach : reaches s 2) (hname : names s a) (htaken : taken = false) :
    branchIf taken a s = .next (s.setPc (s.pc + 2)) := by
  rw [branchIf_eq_commit (reaches_of_le hreach (by decide)) hname, htaken, if_neg Bool.false_ne_true,
    advance_ok hreach, commit_ok]
  rfl

/-- An untaken branch faults last where its next pc is past address 255 (R153). -/
theorem branchIf_of_advance_error (hc : s.cfg.bounds = .checked) (hfetch : reaches s 1) (hname : names s a)
    (htaken : taken = false) (hend : 255 < s.pc.toNat + 2) :
    branchIf taken a s = .next (takeFault .pcRange s) := by
  rw [branchIf_eq_commit hfetch hname, htaken, if_neg Bool.false_ne_true, advance_error hc hend,
    commit_error]

/-- The three faults in the order they are checked, each at the addresses where the rules R150 and R151 give it:
the first two do not depend on whether the branch is taken. -/
theorem branchIf_faults (hc : s.cfg.bounds = .checked) :
    (s.pc.toNat = 255 → branchIf taken a s = .next (faulted .pcRange s)) ∧
    (s.pc.toNat ≤ 254 → 7 < a.toNat → branchIf taken a s = .next (faulted .regIndex s)) ∧
    (s.pc.toNat = 254 → a.toNat ≤ 7 → taken = false →
      branchIf taken a s = .next (faulted .pcRange s)) := by
  refine ⟨fun hpc => ?_, fun hpc ha => ?_, fun hpc ha htaken => ?_⟩
  · exact commit_fetch_error hc (by omega)
  · exact commit_ridx_error hc (fun _ => by omega) ha
  · exact branchIf_of_advance_error hc (fun _ => by omega) (fun _ => ha) htaken (by omega)

/-! ### JEQ, JNE and JMP have that shape -/

/-- JEQ is taken iff FL[0] is set (R150). -/
theorem exec_jeq_eq_branchIf (a : Byte) (s : State) :
    exec (.jeq a) s = branchIf (s.fl.getLsbD 0) a s := rfl

/-- JNE is taken iff FL[0] is clear (R151). -/
theorem exec_jne_eq_branchIf (a : Byte) (s : State) :
    exec (.jne a) s = branchIf (!s.fl.getLsbD 0) a s := rfl

/-- JMP is always taken (R152). -/
theorem exec_jmp_eq_branchIf (a : Byte) (s : State) : exec (.jmp a) s = branchIf true a s := rfl

end Sys2Proof.Machine

namespace Sys2Proof.Stated

open Sys2Proof.Machine

/-- Settles O11: JEQ is a branch on FL[0], which gives its two completions and its faults. -/
theorem jumpIfEqualRule : Obligations.JumpIfEqualRule := by
  intro map a s
  rw [exec_jeq_eq_branchIf]
  exact ⟨rfl, rfl, branchIf_of_taken, branchIf_of_not_taken, branchIf_faults⟩

/-- Settles O12: JNE is a branch on the negation of FL[0], whose clauses name the negated bit. -/
theorem jumpIfNotEqualRule : Obligations.JumpIfNotEqualRule := by
  intro map a s
  rw [exec_jne_eq_branchIf, ← Bool.not_eq_true' (s.fl.getLsbD 0), ← Bool.not_eq_false' (s.fl.getLsbD 0)]
  exact ⟨rfl, rfl, branchIf_of_taken, branchIf_of_not_taken, branchIf_faults⟩

/-- Settles O13: JMP is a branch that is always taken (`exec_jmp`), and keeps the two faults of its operand checks. -/
theorem jumpRule : Obligations.JumpRule := by
  refine fun map a s => ⟨rfl, rfl, exec_jmp, fun hc => ?_⟩
  obtain ⟨hfetch, hindex, -⟩ := branchIf_faults hc
  rw [exec_jmp_eq_branchIf]
  exact ⟨hfetch, hindex⟩

end Sys2Proof.Stated
end

section
/-! The stops (60_exceptions.md R160 to R164): the unknown-instruction halt, the precise fault, which WRAP excludes, and
that each of them is a next state. -/

namespace Sys2Proof.Machine

/-- The host's exit after an unknown-instruction halt is that of a halt (R163, R164). -/
@[simp] theorem hostExit_unknownHalt (op : Byte) (s : State) : hostExit (unknownHalt op s) = some .zeroLike := rfl

/-- The host's exit after a fault names its cause (R164). -/
@[simp] theorem hostExit_takeFault (c : RangeFault) (s : State) :
    hostExit (takeFault c s) = some (.failure c.cause Config.hostFaultExit) := rfl

/-- A range fault has a cause (R161). -/
theorem RangeFault.cause_ne_none (c : RangeFault) : c.cause ≠ .none := by cases c <;> decide

/-- Every instruction has a next state: each arm of `exec` ends in a commit (40_dispatch.md R99), so none is refused and
none ends the model's run. -/
theorem exec_next (i : Instr) (s : State) : ∃ t, exec i s = .next t := by
  unfold exec
  cases i <;> exact commit_next s _

/-- What commits from RUNNING is still RUNNING, or HALTED by HLT (R160). -/
theorem Commits.not_faulted {s t : State} {i : Instr} (h : Commits s i t) (hr : s.runState = .running) :
    t.runState ≠ .faulted := by
  by_cases hi : i = .hlt
  · subst hi
    simp [h.eq_of_hlt]
  · simp [h.runState_eq hi, hr]

/-- A step from RUNNING faults, which only CHECKED allows, or it leaves FAULT_CAUSE alone and the block not FAULTED
(R161). -/
theorem step_faults_or_keeps_cause {s t : State} (hr : s.runState = .running) (h : step s = .next t) :
    Faults s t ∨ (t.runState ≠ .faulted ∧ t.faultCause = s.faultCause) := by
  obtain ⟨hne, -⟩ | ⟨-, ⟨b, -, rfl⟩ | ⟨hd, rfl⟩ | ⟨i, rest, -, hexec⟩⟩ := step_cases h
  · exact absurd hr hne
  · exact .inr ⟨by simp, unknownHalt_faultCause b s⟩
  · exact .inl ⟨checked_of_fetch_truncated hd, .pcRange, rfl⟩
  · exact (exec_cases hexec).symm.imp_right fun hc => ⟨hc.not_faulted hr, hc.faultCause_eq⟩

end Sys2Proof.Machine

namespace Sys2Proof.Stated

open Sys2Proof.Machine

/-- Settles O21: the halt's next state is `unknownHalt` (`step_of_lookup_none`), whose fields are those R163 gives. -/
theorem unknownInstructionHalts : Obligations.UnknownInstructionHalts :=
  fun s hr hk => ⟨_, step_of_lookup_none hr hk, hostExit_unknownHalt (s.readByte s.pc) s, rfl⟩

/-- Settles O24: each way a step goes on is a next state, an instruction by `exec_next`. -/
theorem stepAlwaysNext : Obligations.StepAlwaysNext := by
  intro s
  unfold step
  cases fetchDecode s with
  | nothing | unknown | rangeFault => exact ⟨_, rfl⟩
  | run i => exact exec_next i s

/-- Settles O25: a step that ends FAULTED took a fault at the state before it, and a FAULTED block does not step. -/
theorem faultIsPrecise : Obligations.FaultIsPrecise := by
  intro s t hr h hf
  obtain ⟨-, c, rfl⟩ | ⟨hne, -⟩ := step_faults_or_keeps_cause hr h
  · exact ⟨c.cause_ne_none, rfl, step_not_running nofun, hostExit_takeFault c s⟩
  · exact absurd hf hne

/-- Settles O26: a step that faults has CHECKED. -/
theorem wrapNeverFaults : Obligations.WrapNeverFaults := by
  intro s t hr hw h
  refine (step_faults_or_keeps_cause hr h).resolve_left fun hf => ?_
  obtain ⟨hc, -⟩ := hf
  cases hw.symm.trans hc

end Sys2Proof.Stated
end

section
/-! Hazards (70_reset_and_hazards.md R184): what an instruction that commits with CHECKED has respected. -/

namespace Sys2Proof.Machine

open Sys2Proof.Stated

section Respects

variable {s t : State} {i : Instr} {a : Byte}

/-- What commits has register operands in range (40_dispatch.md R95, R98). -/
theorem Commits.names_of_mem_regOperands (h : Commits s i t) : ∀ b ∈ i.regOperands, names s b := by
  cases h with
  | hlt | ret => exact fun _ hb => absurd hb List.not_mem_nil
  | mul _ ha hb | add _ ha hb | cmp _ ha hb =>
    exact List.forall_mem_cons.mpr ⟨ha, List.forall_mem_singleton.mpr hb⟩
  | prn _ ha | ldi _ ha | push _ ha | pop _ ha | call _ ha | jeqTaken _ ha | jeqNext _ ha | jneTaken _ ha
  | jneNext _ ha | jmp _ ha => exact List.forall_mem_singleton.mpr ha

/-- What commits has its last byte in reach (R93). -/
theorem Commits.reaches_operandCount (h : Commits s i t) : reaches s i.mnemonic.operandCount := by
  cases h with
  | hlt => exact fun _ => Nat.le_of_lt_succ s.pc.isLt
  | jeqTaken hreach | jneTaken hreach | jmp hreach => exact hreach
  | ret hreach | prn hreach | ldi hreach | push hreach | pop hreach | mul hreach | add hreach | cmp hreach
  | call hreach | jeqNext hreach | jneNext hreach => exact reaches_of_le hreach (Nat.le_succ _)

/-- What commits has the byte after it in reach as well, but for HLT and a branch that is taken, which use no address
past their own (R94; 45_branch.md R153). -/
theorem Commits.reaches_length_or (h : Commits s i t) :
    reaches s i.mnemonic.length ∨
      i = .hlt ∨ ∃ a, i = .jmp a ∨ (i = .jeq a ∧ s.fl.getLsbD 0 = true) ∨
        (i = .jne a ∧ s.fl.getLsbD 0 = false) := by
  cases h with
  | hlt => exact .inr (.inl rfl)
  | jmp => exact .inr (.inr ⟨_, .inl rfl⟩)
  | jeqTaken _ _ htaken => exact .inr (.inr ⟨_, .inr (.inl ⟨rfl, htaken⟩)⟩)
  | jneTaken _ _ htaken => exact .inr (.inr ⟨_, .inr (.inr ⟨rfl, htaken⟩)⟩)
  | ret hreach | prn hreach | ldi hreach | push hreach | pop hreach | mul hreach | add hreach | cmp hreach
  | call hreach | jeqNext hreach | jneNext hreach => exact .inl hreach

/-- PUSH and CALL that commit with CHECKED had an SP to move down (42_load_store.md R121, 44_subroutine.md R140). -/
theorem Commits.sp_ne_zero (h : Commits s i t) (hi : i = .push a ∨ i = .call a)
    (hc : s.cfg.bounds = .checked) : s.sp ≠ 0 := by
  obtain rfl | rfl := hi
  · cases h with | push _ _ hsp => exact hsp hc
  · cases h with | call _ _ hsp => exact hsp hc

/-- POP that commits with CHECKED had a value to increment (42_load_store.md R122). -/
theorem Commits.spBeforeInc_ne_of_pop (h : Commits s (.pop a) t) (hc : s.cfg.bounds = .checked) :
    spBeforeInc s (regOf a) (s.readByte s.sp) ≠ 255 := by
  cases h with | pop _ _ hsp => exact hsp hc

/-- RET that commits has its quirk byte in reach, and there the name of a register (44_subroutine.md R141). -/
theorem Commits.names_quirkByte (h : Commits s .ret t) : reaches s 1 ∧ names s (quirkByte s) := by
  cases h with | ret hreach hname _ => exact ⟨hreach, hname⟩

/-- RET that commits with CHECKED had a value to increment (R141). -/
theorem Commits.spBeforeInc_ne_of_ret (h : Commits s .ret t) (hc : s.cfg.bounds = .checked) :
    spBeforeInc s (regOf (quirkByte s)) (s.readByte s.sp) ≠ 255 := by
  cases h with | ret _ _ hsp => exact hsp hc

end Respects

end Sys2Proof.Machine

namespace Sys2Proof.Stated

open Sys2Proof.Machine

/-- Settles O56: the step does not fault, so its instruction commits, and each clause is a condition under which it
does. -/
theorem noFaultNeeds : Obligations.NoFaultNeeds := by
  intro s t i rest hr hc hd h ht
  have hcom : Commits s i t := commits_of_exec ((step_of_decode_ok hr hd).symm.trans h) ht
  have hlen : i.mnemonic.length = 1 + i.mnemonic.operandCount := rfl
  have hlast := hcom.reaches_operandCount hc
  refine ⟨fun b hb => hcom.names_of_mem_regOperands b hb hc, ?_, by omega, fun hend => ?_,
    fun a hi => hcom.sp_ne_zero hi hc, ?_, ?_⟩
  · rintro rfl
    obtain ⟨hreach, hname⟩ := hcom.names_quirkByte
    exact ⟨Nat.le_of_succ_le_succ (hreach hc), hname hc⟩
  · exact hcom.reaches_length_or.resolve_left fun hnext => by have := hnext hc; omega
  · rintro a rfl
    exact hcom.spBeforeInc_ne_of_pop hc
  · rintro rfl
    exact hcom.spBeforeInc_ne_of_ret hc

end Sys2Proof.Stated
end
